-- ==== Sys2Proof/Word.lean ====
section
/-! DEFINITION. The widths of the CHIP-8 core's values (spec/00_scope.md R5, R9). Every value is unsigned; nothing here
carries behaviour. -/

namespace Sys2Proof

/-- A memory byte, a general register, a timer: 8 bits (10_state.md R10, R17, R18, R21). -/
abbrev Byte := BitVec 8

/-- An opcode, `I`, `PC`, a return address: 16 bits (10_state.md R13, R14, R20; 30_encoding.md R70). -/
abbrev Word := BitVec 16

/-- The number of a general register, a 4-bit opcode field; all 16 values are valid (30_encoding.md R73). -/
abbrev RegNo := BitVec 4

end Sys2Proof
end

