-- ==== Sys2Proof/Syntax.lean ====
section
/-! DEFINITION. The 34 instructions of 30_encoding.md R76, one constructor per row of spec/opcode_table.json, in the
table's order. The operand types have the widths of the opcode fields (R71), so no operand can be out of range. -/

namespace Sys2Proof

inductive Instr where
  /-- `00E0` CLS, 44_display.md R150. -/
  | cls
  /-- `00EE` RET, 41_control_flow.md R100. -/
  | ret
  /-- `1nnn` JP nnn, R101. -/
  | jp (nnn : BitVec 12)
  /-- `2nnn` CALL nnn, R102. -/
  | call (nnn : BitVec 12)
  /-- `3xnn` SE Vx, nn, R103. -/
  | seImm (x : RegNo) (nn : Byte)
  /-- `4xnn` SNE Vx, nn, R104. -/
  | sneImm (x : RegNo) (nn : Byte)
  /-- `5xy0` SE Vx, Vy, R105. -/
  | seReg (x y : RegNo)
  /-- `6xnn` LD Vx, nn, 42_alu.md R122. -/
  | ldImm (x : RegNo) (nn : Byte)
  /-- `7xnn` ADD Vx, nn, R123. -/
  | addImm (x : RegNo) (nn : Byte)
  /-- `8xy0` LD Vx, Vy, R124. -/
  | ldReg (x y : RegNo)
  /-- `8xy1` OR Vx, Vy, R125. -/
  | orReg (x y : RegNo)
  /-- `8xy2` AND Vx, Vy, R126. -/
  | andReg (x y : RegNo)
  /-- `8xy3` XOR Vx, Vy, R127. -/
  | xorReg (x y : RegNo)
  /-- `8xy4` ADD Vx, Vy, R128. -/
  | addReg (x y : RegNo)
  /-- `8xy5` SUB Vx, Vy, R129. -/
  | sub (x y : RegNo)
  /-- `8xy6` SHR Vx, R130; `y` is carried and ignored (30_encoding.md R77). -/
  | shr (x y : RegNo)
  /-- `8xy7` SUBN Vx, Vy, R131. -/
  | subn (x y : RegNo)
  /-- `8xyE` SHL Vx, R132; `y` is carried and ignored (R77). -/
  | shl (x y : RegNo)
  /-- `9xy0` SNE Vx, Vy, R106. -/
  | sneReg (x y : RegNo)
  /-- `Annn` LD I, nnn, 43_index_memory.md R140. -/
  | ldI (nnn : BitVec 12)
  /-- `Bnnn` JP V0, nnn, R108. -/
  | jpV0 (nnn : BitVec 12)
  /-- `Cxnn` RND Vx, nn, R133. -/
  | rnd (x : RegNo) (nn : Byte)
  /-- `Dxyn` DRW Vx, Vy, n, R152. -/
  | drw (x y : RegNo) (n : BitVec 4)
  /-- `Ex9E` SKP Vx, 45_timers_keys.md R160. -/
  | skp (x : RegNo)
  /-- `ExA1` SKNP Vx, R161. -/
  | sknp (x : RegNo)
  /-- `Fx07` LD Vx, DT, R162. -/
  | ldVxDt (x : RegNo)
  /-- `Fx0A` LD Vx, K, R163. -/
  | ldVxK (x : RegNo)
  /-- `Fx15` LD DT, Vx, R164. -/
  | ldDtVx (x : RegNo)
  /-- `Fx18` LD ST, Vx, R165. -/
  | ldStVx (x : RegNo)
  /-- `Fx1E` ADD I, Vx, R141. -/
  | addI (x : RegNo)
  /-- `Fx29` LD F, Vx, R142. -/
  | ldF (x : RegNo)
  /-- `Fx33` LD B, Vx, R143. -/
  | ldB (x : RegNo)
  /-- `Fx55` LD [I], Vx, R145. -/
  | storeRegs (x : RegNo)
  /-- `Fx65` LD Vx, [I], R146. -/
  | loadRegs (x : RegNo)
  deriving DecidableEq, Repr

end Sys2Proof
end

