-- ==== Sys2Proof/WellFormed.lean ====
section
/-! DEFINITION. Well-formedness. An `Instr` has no ill-formed values: every operand has exactly the width of its opcode
field and every field value is legal (30_encoding.md R73). What can be ill formed in this hardware is the 16-bit WORD. This
file writes the table of illegal words of R78 by division and remainder, independently of the decoder, which works by
bit fields: that the two agree is a statement, not a definition. -/

namespace Sys2Proof

/-- The family nibble of a word, `op[15:12]`. -/
def familyOf (w : Word) : Nat := w.toNat / 0x1000

/-- The low byte of a word, `op[7:0]`. -/
def lowByteOf (w : Word) : Nat := w.toNat % 0x100

/-- The low nibble of a word, `op[3:0]`. -/
def lowNibbleOf (w : Word) : Nat := w.toNat % 0x10

/-- The check of family 0: only the two whole words are instructions (R78, R79). -/
def legalFamily0 (w : Word) : Bool := w.toNat == 0x00E0 || w.toNat == 0x00EE

/-- The check of families 5 and 9: the low nibble is 0 (R78). -/
def legalCompare (w : Word) : Bool := lowNibbleOf w == 0

/-- The check of family 8: the low nibble is none of 8, 9, A, B, C, D, F (R78). -/
def legalAlu (w : Word) : Bool := !([0x8, 0x9, 0xA, 0xB, 0xC, 0xD, 0xF].contains (lowNibbleOf w))

/-- The check of family E (R78). -/
def legalKeySkip (w : Word) : Bool := [0x9E, 0xA1].contains (lowByteOf w)

/-- The check of family F (R78). -/
def legalMisc (w : Word) : Bool :=
  [0x07, 0x0A, 0x15, 0x18, 0x1E, 0x29, 0x33, 0x55, 0x65].contains (lowByteOf w)

/-- A word is well formed when it is not one of the illegal words R78 lists. -/
def legalWord (w : Word) : Bool :=
  if familyOf w = 0x0 then legalFamily0 w
  else if familyOf w = 0x5 then legalCompare w
  else if familyOf w = 0x8 then legalAlu w
  else if familyOf w = 0x9 then legalCompare w
  else if familyOf w = 0xE then legalKeySkip w
  else if familyOf w = 0xF then legalMisc w
  else true

end Sys2Proof
end

