-- ==== Sys2Proof/Decode.lean ====
section
/-! DEFINITION. The decoder of 30_encoding.md R74 (total: one of the 34 instructions, or UnknownOpcode with the word), the
encoder of R84, the byte order of an opcode in memory (20_memory.md R46), and the opcode map of R76 as match and mask. -/

namespace Sys2Proof

/-! ### Fields (R71) -/

def fieldFam (op : Word) : BitVec 4 := op.extractLsb' 12 4
def fieldX (op : Word) : RegNo := op.extractLsb' 8 4
def fieldY (op : Word) : RegNo := op.extractLsb' 4 4
def fieldN (op : Word) : BitVec 4 := op.extractLsb' 0 4
def fieldNN (op : Word) : Byte := op.extractLsb' 0 8
def fieldNNN (op : Word) : BitVec 12 := op.extractLsb' 0 12

/-- The opcode made of two memory bytes: the byte at the lower address is the high byte (20_memory.md R46). -/
def opcodeOfBytes (hi lo : Byte) : Word := hi ++ lo

/-- `op[15:8]`, the byte stored at the lower address (R46). -/
def opcodeHi (op : Word) : Byte := op.extractLsb' 8 8

/-- `op[7:0]`, the byte stored at the higher address (R46). -/
def opcodeLo (op : Word) : Byte := op.extractLsb' 0 8

/-- What decoding answers: an instruction, or the rejection UnknownOpcode with the whole word (R74, R78). -/
inductive Decoded where
  | instr (i : Instr)
  | unknownOpcode (op : Word)
  deriving DecidableEq, Repr

/-- Family 0 is decided by the whole word (R74, R79). -/
def decodeFamily0 (op : Word) : Decoded :=
  if op = 0x00E0#16 then .instr .cls
  else if op = 0x00EE#16 then .instr .ret
  else .unknownOpcode op

/-- Family 8 is decided by the low nibble (R74, R76 rows 10 to 18). -/
def decodeAlu (op : Word) : Decoded :=
  let x := fieldX op
  let y := fieldY op
  if fieldN op = 0x0#4 then .instr (.ldReg x y)
  else if fieldN op = 0x1#4 then .instr (.orReg x y)
  else if fieldN op = 0x2#4 then .instr (.andReg x y)
  else if fieldN op = 0x3#4 then .instr (.xorReg x y)
  else if fieldN op = 0x4#4 then .instr (.addReg x y)
  else if fieldN op = 0x5#4 then .instr (.sub x y)
  else if fieldN op = 0x6#4 then .instr (.shr x y)
  else if fieldN op = 0x7#4 then .instr (.subn x y)
  else if fieldN op = 0xE#4 then .instr (.shl x y)
  else .unknownOpcode op

/-- Family E is decided by the low byte (R74, R76 rows 24 and 25). -/
def decodeKeySkip (op : Word) : Decoded :=
  if fieldNN op = 0x9E#8 then .instr (.skp (fieldX op))
  else if fieldNN op = 0xA1#8 then .instr (.sknp (fieldX op))
  else .unknownOpcode op

/-- Family F is decided by the low byte (R74, R76 rows 26 to 34). -/
def decodeMisc (op : Word) : Decoded :=
  let x := fieldX op
  if fieldNN op = 0x07#8 then .instr (.ldVxDt x)
  else if fieldNN op = 0x0A#8 then .instr (.ldVxK x)
  else if fieldNN op = 0x15#8 then .instr (.ldDtVx x)
  else if fieldNN op = 0x18#8 then .instr (.ldStVx x)
  else if fieldNN op = 0x1E#8 then .instr (.addI x)
  else if fieldNN op = 0x29#8 then .instr (.ldF x)
  else if fieldNN op = 0x33#8 then .instr (.ldB x)
  else if fieldNN op = 0x55#8 then .instr (.storeRegs x)
  else if fieldNN op = 0x65#8 then .instr (.loadRegs x)
  else .unknownOpcode op

/-- The decode procedure of R74: the family nibble first, then the sub-opcode; strict in every fixed bit (R78, D2). -/
def decode (op : Word) : Decoded :=
  if fieldFam op = 0x0#4 then decodeFamily0 op
  else if fieldFam op = 0x1#4 then .instr (.jp (fieldNNN op))
  else if fieldFam op = 0x2#4 then .instr (.call (fieldNNN op))
  else if fieldFam op = 0x3#4 then .instr (.seImm (fieldX op) (fieldNN op))
  else if fieldFam op = 0x4#4 then .instr (.sneImm (fieldX op) (fieldNN op))
  else if fieldFam op = 0x5#4 then
    if fieldN op = 0x0#4 then .instr (.seReg (fieldX op) (fieldY op)) else .unknownOpcode op
  else if fieldFam op = 0x6#4 then .instr (.ldImm (fieldX op) (fieldNN op))
  else if fieldFam op = 0x7#4 then .instr (.addImm (fieldX op) (fieldNN op))
  else if fieldFam op = 0x8#4 then decodeAlu op
  else if fieldFam op = 0x9#4 then
    if fieldN op = 0x0#4 then .instr (.sneReg (fieldX op) (fieldY op)) else .unknownOpcode op
  else if fieldFam op = 0xA#4 then .instr (.ldI (fieldNNN op))
  else if fieldFam op = 0xB#4 then .instr (.jpV0 (fieldNNN op))
  else if fieldFam op = 0xC#4 then .instr (.rnd (fieldX op) (fieldNN op))
  else if fieldFam op = 0xD#4 then .instr (.drw (fieldX op) (fieldY op) (fieldN op))
  else if fieldFam op = 0xE#4 then decodeKeySkip op
  else decodeMisc op

/-- The decoder on memory bytes: two bytes are one opcode, the rest is left over; fewer than two bytes are no opcode. -/
def decodeBytes : List Byte → Option (Decoded × List Byte)
  | hi :: lo :: rest => some (decode (opcodeOfBytes hi lo), rest)
  | _ => none

/-! ### The encoder (R84), each format as R72 lays out its fields -/

def encodeNNN (fam : BitVec 4) (nnn : BitVec 12) : Word := fam ++ nnn
def encodeXNN (fam : BitVec 4) (x : RegNo) (nn : Byte) : Word := (fam ++ x) ++ nn
def encodeXYN (fam : BitVec 4) (x y : RegNo) (n : BitVec 4) : Word := ((fam ++ x) ++ y) ++ n

/-- The word of an instruction (R76, R84). Formats XYS and XSS are XYN and XNN with the sub-opcode in place of the operand. -/
def encode : Instr → Word
  | .cls => 0x00E0#16
  | .ret => 0x00EE#16
  | .jp nnn => encodeNNN 0x1#4 nnn
  | .call nnn => encodeNNN 0x2#4 nnn
  | .seImm x nn => encodeXNN 0x3#4 x nn
  | .sneImm x nn => encodeXNN 0x4#4 x nn
  | .seReg x y => encodeXYN 0x5#4 x y 0x0#4
  | .ldImm x nn => encodeXNN 0x6#4 x nn
  | .addImm x nn => encodeXNN 0x7#4 x nn
  | .ldReg x y => encodeXYN 0x8#4 x y 0x0#4
  | .orReg x y => encodeXYN 0x8#4 x y 0x1#4
  | .andReg x y => encodeXYN 0x8#4 x y 0x2#4
  | .xorReg x y => encodeXYN 0x8#4 x y 0x3#4
  | .addReg x y => encodeXYN 0x8#4 x y 0x4#4
  | .sub x y => encodeXYN 0x8#4 x y 0x5#4
  | .shr x y => encodeXYN 0x8#4 x y 0x6#4
  | .subn x y => encodeXYN 0x8#4 x y 0x7#4
  | .shl x y => encodeXYN 0x8#4 x y 0xE#4
  | .sneReg x y => encodeXYN 0x9#4 x y 0x0#4
  | .ldI nnn => encodeNNN 0xA#4 nnn
  | .jpV0 nnn => encodeNNN 0xB#4 nnn
  | .rnd x nn => encodeXNN 0xC#4 x nn
  | .drw x y n => encodeXYN 0xD#4 x y n
  | .skp x => encodeXNN 0xE#4 x 0x9E#8
  | .sknp x => encodeXNN 0xE#4 x 0xA1#8
  | .ldVxDt x => encodeXNN 0xF#4 x 0x07#8
  | .ldVxK x => encodeXNN 0xF#4 x 0x0A#8
  | .ldDtVx x => encodeXNN 0xF#4 x 0x15#8
  | .ldStVx x => encodeXNN 0xF#4 x 0x18#8
  | .addI x => encodeXNN 0xF#4 x 0x1E#8
  | .ldF x => encodeXNN 0xF#4 x 0x29#8
  | .ldB x => encodeXNN 0xF#4 x 0x33#8
  | .storeRegs x => encodeXNN 0xF#4 x 0x55#8
  | .loadRegs x => encodeXNN 0xF#4 x 0x65#8

/-- The two bytes of an instruction in memory, lower address first (20_memory.md R46). -/
def encodeBytes (i : Instr) : List Byte := [opcodeHi (encode i), opcodeLo (encode i)]

/-- The match and mask of each row of R76: a word is an instance of the row when `word & mask = match` (R72). -/
def matchMask : Instr → Word × Word
  | .cls => (0x00E0#16, 0xFFFF#16)
  | .ret => (0x00EE#16, 0xFFFF#16)
  | .jp _ => (0x1000#16, 0xF000#16)
  | .call _ => (0x2000#16, 0xF000#16)
  | .seImm _ _ => (0x3000#16, 0xF000#16)
  | .sneImm _ _ => (0x4000#16, 0xF000#16)
  | .seReg _ _ => (0x5000#16, 0xF00F#16)
  | .ldImm _ _ => (0x6000#16, 0xF000#16)
  | .addImm _ _ => (0x7000#16, 0xF000#16)
  | .ldReg _ _ => (0x8000#16, 0xF00F#16)
  | .orReg _ _ => (0x8001#16, 0xF00F#16)
  | .andReg _ _ => (0x8002#16, 0xF00F#16)
  | .xorReg _ _ => (0x8003#16, 0xF00F#16)
  | .addReg _ _ => (0x8004#16, 0xF00F#16)
  | .sub _ _ => (0x8005#16, 0xF00F#16)
  | .shr _ _ => (0x8006#16, 0xF00F#16)
  | .subn _ _ => (0x8007#16, 0xF00F#16)
  | .shl _ _ => (0x800E#16, 0xF00F#16)
  | .sneReg _ _ => (0x9000#16, 0xF00F#16)
  | .ldI _ => (0xA000#16, 0xF000#16)
  | .jpV0 _ => (0xB000#16, 0xF000#16)
  | .rnd _ _ => (0xC000#16, 0xF000#16)
  | .drw _ _ _ => (0xD000#16, 0xF000#16)
  | .skp _ => (0xE09E#16, 0xF0FF#16)
  | .sknp _ => (0xE0A1#16, 0xF0FF#16)
  | .ldVxDt _ => (0xF007#16, 0xF0FF#16)
  | .ldVxK _ => (0xF00A#16, 0xF0FF#16)
  | .ldDtVx _ => (0xF015#16, 0xF0FF#16)
  | .ldStVx _ => (0xF018#16, 0xF0FF#16)
  | .addI _ => (0xF01E#16, 0xF0FF#16)
  | .ldF _ => (0xF029#16, 0xF0FF#16)
  | .ldB _ => (0xF033#16, 0xF0FF#16)
  | .storeRegs _ => (0xF055#16, 0xF0FF#16)
  | .loadRegs _ => (0xF065#16, 0xF0FF#16)

/-- The word of a table row given as `nbits` bits of a number (bits at and above `nbits` are 0). -/
def tableWord (nbits w : Nat) : Word := BitVec.ofNat 16 (w % 2 ^ nbits)

/-- The instruction the decoder reads from a table row's word, laid out as two bytes, high byte first. -/
def decodeTableWord (nbits w : Nat) : Option Instr :=
  match decodeBytes [opcodeHi (tableWord nbits w), opcodeLo (tableWord nbits w)] with
  | some (.instr i, _) => some i
  | _ => none

end Sys2Proof
end

