-- ==== Sys2Proof/Config.lean ====
section
/-! DEFINITION. The parameters of the machine (00_scope.md R5) and the values the spec leaves open. Each open value is an
OPAQUE constant: nothing in Lean can evaluate it, so a theorem that mentions one holds whatever the value is. -/

namespace Sys2Proof.Config

/-- `MEM_SIZE`: addresses 0x000 to 0xFFF (R5, R40). -/
abbrev memSize : Nat := 4096

/-- `PROG_BASE`: load address of the program and the PC after INIT (R5, R41). -/
abbrev progBase : Nat := 0x200

/-- `ROM_MAX`: the largest program INIT accepts (R5, R171). -/
abbrev romMax : Nat := 3584

/-- The part of `KEYPICK` that is open (R5, 45_timers_keys.md R163, D8): for a latch with several keys down, the position,
modulo their number, of the reported key in the rising list of pressed keys. Every choice function the spec allows is
of this form. Log entry 4. -/
opaque keyChoice : BitVec 16 → Nat

/-- The byte `RND` of the `n`-th draw that no host input fixes (42_alu.md R133, D5): a free value. Log entry 3. -/
opaque freeRnd : Nat → Byte

/-! The state after an error (60_exceptions.md R175): one free value per piece of state, indexed by the draw counter.
Log entry 2. -/

opaque freeV : Nat → Vector Byte 16
opaque freeIndex : Nat → Word
opaque freePc : Nat → Word
opaque freeDt : Nat → Byte
opaque freeSt : Nat → Byte
opaque freeSp : Nat → Fin 17
opaque freeStack : Nat → Vector Word 16
/-- The bytes of memory, as writes over the reset contents: every 4096-byte image is of this form. -/
opaque freeMem : Nat → List Host.Cell
opaque freeDisp : Nat → Vector (BitVec 64) 32
/-- `ERR_OPCODE` while `ERR` is not UnknownOpcode (R24, U11). -/
opaque freeErrOpcode : Nat → Word
/-- The key latch after a failed INIT (70_reset_and_hazards.md R203); no error of STEP touches the latch (R23). -/
opaque freeKey : Nat → BitVec 16

end Sys2Proof.Config
end

