-- ==== Sys2Proof/Machine/State.lean ====
section
/-! DEFINITION. The state of the core (spec/10_state.md) as plain data, the reasons a step may stop, and the state after
`INIT` of an empty program (10_state.md R26, 70_reset_and_hazards.md R201, R202). -/

namespace Sys2Proof.Machine

/-- The five error kinds of 60_exceptions.md R170, and `none`: the contents of the register `ERR`. An error is not a
`Fault` of the model: the machine takes it (log entry 1). -/
inductive ErrorKind where
  /-- No error. -/
  | none
  /-- Raised by INIT only (R171). -/
  | romTooLarge
  /-- Raised by CALL with 16 return addresses held (R173). -/
  | stackOverflow
  /-- Raised by RET with none held (R174). -/
  | stackUnderflow
  /-- Raised by STEP at decode (R172); `ERR_OPCODE` holds the word. -/
  | unknownOpcode
  /-- Raised by STEP at fetch, LD B, LD [I],Vx and LD Vx,[I] (R179). -/
  | memoryOutOfBounds
  deriving DecidableEq, Repr

/-- A step of this model never faults: every error the spec names has an entry the spec describes (60_exceptions.md R181),
so it is taken as a next state, and no instruction lacks an effect. The type therefore has no constructor. -/
inductive Fault where
  deriving DecidableEq, Repr

/-- Why a step may be refused. -/
inductive Refusal where
  /-- Raised only by an arm of `exec` whose instruction has no meaning yet (safe: the run stops). No arm raises it now. -/
  | notModelled (mnemonic : String)
  deriving DecidableEq, Repr

/-- `MEM` (20_memory.md R40) as the bytes that differ from the reset contents, in rising order of address; the canonical
form is `Memory.wf`, in Machine/Ops.lean. -/
abbrev Memory := List Host.Cell

/-- `DISP` (10_state.md R22): row `r` is element `r`, column `c` is bit `c` of the row; 1 is on. -/
abbrev Display := Vector (BitVec 64) 32

/-- Every piece of state 10_state.md section 1 lists, and last two fields of the model's own (log entry 3). -/
structure State where
  /-- `V[0]` to `V[15]`, R10; `V[15]` is the flag register VF, R11. -/
  v : Vector Byte 16
  /-- `I`, R13. -/
  index : Word
  /-- `PC`, R14. -/
  pc : Word
  /-- `DT`, R17. -/
  dt : Byte
  /-- `ST`, R18. -/
  st : Byte
  /-- `SP`, the number of return addresses held, 0 to 16, R19. -/
  sp : Fin 17
  /-- `STACK[0]` to `STACK[15]`, R20. -/
  stack : Vector Word 16
  /-- `MEM`, R21. -/
  mem : Memory
  /-- `DISP`, R22. -/
  disp : Display
  /-- `KEY`, R23: bit `k` is 1 while key `k` is held. Owned by the host. -/
  key : BitVec 16
  /-- `HALT`, R24: an error has ended execution. -/
  halt : Bool
  /-- `ERR`, R24. -/
  err : ErrorKind
  /-- `ERR_OPCODE`, R24: the offending opcode while `ERR` is UnknownOpcode. -/
  errOpcode : Word
  /-- The model's own: the `RND` bytes the host has given for the coming RND instructions (00_scope.md R7, 42_alu.md R133);
  where it is empty the byte is a free value. -/
  rndIn : List Byte
  /-- The model's own: how many free values have been drawn. -/
  freeCount : Nat
  deriving DecidableEq, Repr

/-- What an instruction or a step answers. -/
abbrev Result := Host.Outcome State Fault Refusal

/-- The state after a successful INIT with an empty program (10_state.md R26, 70_reset_and_hazards.md R202): memory holds
its reset contents, so nothing is listed. `errOpcode` is unspecified there: log entry 5. `rndIn` and `freeCount` are the
model's own: log entry 3. -/
def State.reset : State where
  v := Vector.replicate 16 0x00#8
  index := 0x0000#16
  pc := 0x0200#16
  dt := 0x00#8
  st := 0x00#8
  sp := 0
  stack := Vector.replicate 16 0x0000#16
  mem := []
  disp := Vector.replicate 32 0#64
  key := 0#16
  halt := false
  err := .none
  errOpcode := 0x0000#16
  rndIn := []
  freeCount := 0

end Sys2Proof.Machine
end

