-- ==== Sys2Proof/Machine/Ops.lean ====
section
/-! DEFINITION. The named operations over memory, registers, the call stack and the display; raising an error; fetching,
advancing the PC and ticking the timers. -/

namespace Sys2Proof.Machine

/-! ### Memory (20_memory.md) -/

/-- The bounds check of R45, on natural numbers: no wrap at 4096 and none at 65536. -/
abbrev InBounds (addr n : Nat) : Prop := addr + n ≤ Config.memSize

/-- The 80 font bytes of R44, glyphs 0 to F, five bytes each (log entry 7). -/
def fontTable : List Byte :=
  [0xF0#8, 0x90#8, 0x90#8, 0x90#8, 0xF0#8] ++ [0x20#8, 0x60#8, 0x20#8, 0x20#8, 0x70#8] ++
  [0xF0#8, 0x10#8, 0xF0#8, 0x80#8, 0xF0#8] ++ [0xF0#8, 0x10#8, 0xF0#8, 0x10#8, 0xF0#8] ++
  [0x90#8, 0x90#8, 0xF0#8, 0x10#8, 0x10#8] ++ [0xF0#8, 0x80#8, 0xF0#8, 0x10#8, 0xF0#8] ++
  [0xF0#8, 0x80#8, 0xF0#8, 0x90#8, 0xF0#8] ++ [0xF0#8, 0x10#8, 0x20#8, 0x40#8, 0x40#8] ++
  [0xF0#8, 0x90#8, 0xF0#8, 0x90#8, 0xF0#8] ++ [0xF0#8, 0x90#8, 0xF0#8, 0x10#8, 0xF0#8] ++
  [0xF0#8, 0x90#8, 0xF0#8, 0x90#8, 0x90#8] ++ [0xE0#8, 0x90#8, 0xE0#8, 0x90#8, 0xE0#8] ++
  [0xF0#8, 0x80#8, 0x80#8, 0x80#8, 0xF0#8] ++ [0xE0#8, 0x90#8, 0x90#8, 0x90#8, 0xE0#8] ++
  [0xF0#8, 0x80#8, 0xF0#8, 0x80#8, 0xF0#8] ++ [0xF0#8, 0x80#8, 0xF0#8, 0x80#8, 0x80#8]

/-- What an unlisted address reads as: the byte INIT puts there, the font at 0x000 to 0x04F and 0x00 above (R41, R44). -/
def resetByte (a : Nat) : Byte := fontTable.getD a 0x00#8

/-- `MEM[a]` (R47). -/
def Memory.read : Memory → Nat → Byte
  | [], a => resetByte a
  | (c, b) :: m, a => if c = a then b else Memory.read m a

/-- A cell in front of a list of cells above it, left out where it holds the reset byte. -/
def Memory.put (a : Nat) (b : Byte) (m : Memory) : Memory :=
  if b = resetByte a then m else (a, b) :: m

/-- The list with the byte at `a` set, still in canonical form. -/
def Memory.insert (a : Nat) (b : Byte) : Memory → Memory
  | [] => Memory.put a b []
  | (c, d) :: m =>
    if a < c then Memory.put a b ((c, d) :: m)
    else if a = c then Memory.put a b m
    else (c, d) :: Memory.insert a b m

/-- `MEM[a] <- b` (R48). There is no byte at 4096 or above to write: the instructions check their range first and raise
MemoryOutOfBounds, so this case is never reached from them. -/
def Memory.write (m : Memory) (a : Nat) (b : Byte) : Memory :=
  if a < Config.memSize then Memory.insert a b m else m

/-- The canonical form: addresses strictly rising and inside the image, no cell equal to its reset byte. -/
abbrev Memory.wf (m : Memory) : Prop :=
  m.Pairwise (fun c d => c.1 < d.1) ∧ ∀ c ∈ m, c.1 < Config.memSize ∧ c.2 ≠ resetByte c.1

/-- Byte writes in increasing address order from `a` (R48, 43_index_memory.md R143, R145). -/
def Memory.writeList (m : Memory) (a : Nat) : List Byte → Memory
  | [] => m
  | b :: bs => Memory.writeList (m.write a b) (a + 1) bs

/-- `n` byte reads in increasing address order from `a` (43_index_memory.md R146). -/
def Memory.readList (m : Memory) (a n : Nat) : List Byte :=
  (List.range n).map fun k => m.read (a + k)

/-! ### General registers (10_state.md R10) -/

/-- `V[x]`. -/
def State.reg (s : State) (x : RegNo) : Byte := s.v[x.toNat]'(x.isLt)

/-- `V[x] <- b`. -/
def State.setReg (s : State) (x : RegNo) (b : Byte) : State := { s with v := s.v.set x.toNat b x.isLt }

/-- The values of `V[0]` to `V[x]` inclusive (43_index_memory.md R145). -/
def State.regsUpTo (s : State) (x : RegNo) : List Byte :=
  (List.range (x.toNat + 1)).map fun k => s.reg (BitVec.ofNat 4 k)

/-- Consecutive register writes from `V[k]` upward (43_index_memory.md R146). -/
def State.setRegsFrom (s : State) (k : Nat) : List Byte → State
  | [] => s
  | b :: bs => State.setRegsFrom (s.setReg (BitVec.ofNat 4 k) b) (k + 1) bs

/-! ### Raising an error (60_exceptions.md R181, R175) -/

/-- `raise E` (R181): HALT is set and ERR holds the error. Every other piece of the core's state is unspecified (R175), so
each is a free value (log entry 2); the key latch is the host's and no error touches it (10_state.md R23). -/
def raiseError (e : ErrorKind) (s : State) : State where
  v := Config.freeV s.freeCount
  index := Config.freeIndex s.freeCount
  pc := Config.freePc s.freeCount
  dt := Config.freeDt s.freeCount
  st := Config.freeSt s.freeCount
  sp := Config.freeSp s.freeCount
  stack := Config.freeStack s.freeCount
  mem := (Config.freeMem s.freeCount).foldl (fun m c => Memory.write m c.1 c.2) []
  disp := Config.freeDisp s.freeCount
  key := s.key
  halt := true
  err := e
  errOpcode := Config.freeErrOpcode s.freeCount
  rndIn := s.rndIn
  freeCount := s.freeCount + 1

/-- `raise UnknownOpcode(op)` (R172, R181): the one error that records information. -/
def raiseUnknownOpcode (op : Word) (s : State) : State :=
  { raiseError .unknownOpcode s with errOpcode := op }

/-- The number of an error in the 3-bit register `ERR` (R170). -/
def ErrorKind.number : ErrorKind → BitVec 3
  | .none => 0
  | .romTooLarge => 1
  | .stackOverflow => 2
  | .stackUnderflow => 3
  | .unknownOpcode => 4
  | .memoryOutOfBounds => 5

/-! ### The call stack (10_state.md R19, R20) -/

/-- The push of CALL (41_control_flow.md R102): StackOverflow when full, else `STACK[SP] <- w`, `SP <- SP + 1`. -/
def pushThen (w : Word) (k : State → State) (s : State) : State :=
  if h : s.sp.val < 16 then
    k { s with stack := s.stack.set s.sp.val w h, sp := ⟨s.sp.val + 1, by omega⟩ }
  else raiseError .stackOverflow s

/-- The pop of RET (41_control_flow.md R100): StackUnderflow when empty, else `SP <- SP - 1` and the value `STACK[SP]`. -/
def popThen (k : Word → State → State) (s : State) : State :=
  if h : s.sp.val = 0 then raiseError .stackUnderflow s
  else
    k (s.stack[s.sp.val - 1]'(by have := s.sp.isLt; omega))
      { s with sp := ⟨s.sp.val - 1, by have := s.sp.isLt; omega⟩ }

/-! ### The display (44_display.md) -/

/-- The pixel at row `r`, column `c`, both axes wrapping into the 64 x 32 grid (10_state.md R22, R154). -/
def Display.pixel (d : Display) (r c : Nat) : Bool :=
  (d[r % 32]'(Nat.mod_lt r (by decide))).getLsbD (c % 64)

/-- The display with that pixel XORed with 1. -/
def Display.toggle (d : Display) (r c : Nat) : Display :=
  d.set (r % 32) (d[r % 32]'(Nat.mod_lt r (by decide)) ^^^ (1#64 <<< (c % 64))) (Nat.mod_lt r (by decide))

/-- The display with every pixel off (R150). -/
def Display.clear : Display := Vector.replicate 32 0#64

/-- One sprite bit at row `r`, column `c` (R152, R153): a set bit records a hit if the pixel is on, then toggles it. -/
def drawBit (bit : Bool) (r c : Nat) (acc : Display × Bool) : Display × Bool :=
  if bit then (acc.1.toggle r c, acc.2 || acc.1.pixel r c) else acc

/-- One sprite row: column offset `c` is bit `7 - c` of the byte (R151). -/
def drawRow (b : Byte) (r ax : Nat) (acc : Display × Bool) : Display × Bool :=
  (List.range 8).foldl (fun a c => drawBit (b.getLsbD (7 - c)) r (ax + c) a) acc

/-- The whole sprite of `n` rows from address `base`, anchored at column `ax`, row `ay` (R152): a row whose byte lies outside
memory is skipped (R155). Answers the display and the collision `hit`. -/
def drawSprite (m : Memory) (base ax ay n : Nat) (d : Display) : Display × Bool :=
  (List.range n).foldl
    (fun a r => if InBounds (base + r) 1 then drawRow (m.read (base + r)) (ay + r) ax a else a) (d, false)

/-! ### Random input (42_alu.md R133) -/

/-- The byte `RND` of this STEP: the one the host gave, else a free value. -/
def State.rndByte (s : State) : Byte :=
  match s.rndIn with
  | b :: _ => b
  | [] => Config.freeRnd s.freeCount

/-- The state with that byte used up: the next RND instruction has a fresh one. -/
def State.afterRnd (s : State) : State :=
  { s with rndIn := s.rndIn.tail, freeCount := s.freeCount + 1 }

/-! ### The phases of STEP around the instruction (40_step_cycle.md) -/

/-- Phases 1 and 2: the opcode at `PC`, or nothing where `PC` or `PC + 1` lies outside memory (R90, R91). -/
def fetch (s : State) : Option Word :=
  if InBounds s.pc.toNat 2 then
    some (opcodeOfBytes (s.mem.read s.pc.toNat) (s.mem.read (s.pc.toNat + 1)))
  else none

/-- Phase 3: `PC <- PC + 2`, before decode (R92). -/
def advancePc (s : State) : State := { s with pc := s.pc + 2 }

/-- One down-counter's tick: at 0 it stays 0 (45_timers_keys.md R167). -/
def tickTimer (t : Byte) : Byte := if t = 0 then 0 else t - 1

/-- Phase 6: `TimerTick()` (R167). -/
def timerTick (s : State) : State := { s with dt := tickTimer s.dt, st := tickTimer s.st }

/-- The end of a STEP whose instruction has run: the tick, unless it raised an error (R95, R167). -/
def endStep (t : State) : State := if t.halt then t else timerTick t

/-- `endStep` on the instruction's answer. -/
def finishStep : Result → Result
  | .next t => .next (endStep t)
  | .fault r => .fault r
  | .refused r => .refused r

/-- The fetch found no whole opcode in memory (R90). -/
def fetchFailed (s : State) : Result := .next (raiseError .memoryOutOfBounds s)

/-- The word decodes to no instruction (R93). -/
def decodeFailed (op : Word) (s : State) : Result := .next (raiseUnknownOpcode op s)

/-- The state with an opcode stored at `PC`, high byte first, where the next fetch reads it. -/
def State.putOpcode (s : State) (op : Word) : State :=
  { s with mem := (s.mem.write s.pc.toNat (opcodeHi op)).write (s.pc.toNat + 1) (opcodeLo op) }

end Sys2Proof.Machine
end

