-- ==== Sys2Proof/Machine/Flags.lean ====
section
/-! DEFINITION. The flag computations (10_state.md R27): each is exactly 0x00 or 0x01, written to VF after the result
(42_alu.md R121). -/

namespace Sys2Proof.Machine

/-- VF, the flag register (10_state.md R11). -/
def flagReg : RegNo := 0xF#4

/-- A condition as a flag byte. -/
def flagByte (c : Bool) : Byte := if c then 0x01#8 else 0x00#8

/-- ADD Vx,Vy: the unsigned sum exceeds 255 (R128). -/
def carryFlag (a b : Byte) : Byte := flagByte (decide (a.toNat + b.toNat > 255))

/-- SUB and SUBN: the minuend is strictly greater than the subtrahend (R129, R131). -/
def greaterFlag (minuend subtrahend : Byte) : Byte := flagByte (decide (minuend.toNat > subtrahend.toNat))

/-- SHR: the bit shifted out on the right (R130). -/
def lowBitFlag (a : Byte) : Byte := flagByte (a.getLsbD 0)

/-- SHL: the bit shifted out on the left (R132). -/
def highBitFlag (a : Byte) : Byte := flagByte (a.getLsbD 7)

/-- Result to `Vx`, then flag to VF: with `x = 15` the flag remains (R121). Both values are computed from the old registers
(R120). -/
def State.setWithFlag (s : State) (x : RegNo) (result flag : Byte) : State :=
  (s.setReg x result).setReg flagReg flag

end Sys2Proof.Machine
end

