-- ==== Sys2Proof/Machine/Alu.lean ====
section
/-! DEFINITION. The register and arithmetic/logic instructions (spec/42_alu.md). Arithmetic wraps at 8 bits (R134); operands
are read before anything is written (R120) and the flag is written last (R121). -/

namespace Sys2Proof.Machine

/-- LD Vx,nn, R122. -/
def execLdImm (x : RegNo) (nn : Byte) (s : State) : Result := .next (s.setReg x nn)

/-- ADD Vx,nn, R123: no flag. -/
def execAddImm (x : RegNo) (nn : Byte) (s : State) : Result := .next (s.setReg x (s.reg x + nn))

/-- LD Vx,Vy, R124. -/
def execLdReg (x y : RegNo) (s : State) : Result := .next (s.setReg x (s.reg y))

/-- OR Vx,Vy, R125: no flag. -/
def execOrReg (x y : RegNo) (s : State) : Result := .next (s.setReg x (s.reg x ||| s.reg y))

/-- AND Vx,Vy, R126: no flag. -/
def execAndReg (x y : RegNo) (s : State) : Result := .next (s.setReg x (s.reg x &&& s.reg y))

/-- XOR Vx,Vy, R127: no flag. -/
def execXorReg (x y : RegNo) (s : State) : Result := .next (s.setReg x (s.reg x ^^^ s.reg y))

/-- ADD Vx,Vy, R128. -/
def execAddReg (x y : RegNo) (s : State) : Result :=
  .next (s.setWithFlag x (s.reg x + s.reg y) (carryFlag (s.reg x) (s.reg y)))

/-- SUB Vx,Vy, R129. -/
def execSub (x y : RegNo) (s : State) : Result :=
  .next (s.setWithFlag x (s.reg x - s.reg y) (greaterFlag (s.reg x) (s.reg y)))

/-- SHR Vx, R130: the `y` field is ignored (30_encoding.md R77). -/
def execShr (x _y : RegNo) (s : State) : Result :=
  .next (s.setWithFlag x (s.reg x >>> 1) (lowBitFlag (s.reg x)))

/-- SUBN Vx,Vy, R131. -/
def execSubn (x y : RegNo) (s : State) : Result :=
  .next (s.setWithFlag x (s.reg y - s.reg x) (greaterFlag (s.reg y) (s.reg x)))

/-- SHL Vx, R132: the `y` field is ignored (30_encoding.md R77). -/
def execShl (x _y : RegNo) (s : State) : Result :=
  .next (s.setWithFlag x (s.reg x <<< 1) (highBitFlag (s.reg x)))

/-- RND Vx,nn, R133: the byte `RND` is this STEP's input. -/
def execRnd (x : RegNo) (nn : Byte) (s : State) : Result :=
  .next (s.afterRnd.setReg x (s.rndByte &&& nn))

end Sys2Proof.Machine
end

