-- ==== Sys2Proof/Machine/Operands.lean ====
section
/-! DEFINITION. The operand forms: immediates widened with zeros, jump targets, skips, the key selector, the binary-coded
decimal digits, and the bounds-checked multi-byte transfers through `I`. -/

namespace Sys2Proof.Machine

/-- `zext_16(nnn)` (30_encoding.md R73). -/
def zextAddr (nnn : BitVec 12) : Word := nnn.setWidth 16

/-- `zext_16(b)` of a register. -/
def zextByte (b : Byte) : Word := b.setWidth 16

/-- The target of JP V0,nnn: at most 0x10FE, not reduced to 12 bits (41_control_flow.md R108). -/
def offsetTarget (nnn : BitVec 12) (s : State) : Word := zextAddr nnn + zextByte (s.reg 0)

/-- A skip: `PC <- PC + 2` over the post-fetch PC where the condition holds (41_control_flow.md R107). -/
def skipIf (c : Bool) (s : State) : State := if c then { s with pc := s.pc + 2 } else s

/-- The key a register selects: its low four bits (45_timers_keys.md R166). -/
def keySelect (b : Byte) : BitVec 4 := b.extractLsb' 0 4

/-- `KEY[Vx[3:0]]` (R166). -/
def keyDown (x : RegNo) (s : State) : Bool := s.key.getLsbD (keySelect (s.reg x)).toNat

/-- The indices of the pressed keys, rising. -/
def pressedKeys (key : BitVec 16) : List Nat := (List.range 16).filter fun k => key.getLsbD k

/-- `KEYPICK` (R163): the index of a pressed key. With one key down it is that key; with several, which one is open
(log entry 4). With none down the instruction does not use it. -/
def keyPick (key : BitVec 16) : Byte :=
  match pressedKeys key with
  | [] => 0
  | [k] => BitVec.ofNat 8 k
  | k :: l :: ks =>
    BitVec.ofNat 8 ((k :: l :: ks).getD (Config.keyChoice key % (ks.length + 2)) k)

/-- Hundreds, tens and ones of a byte, one digit per byte (43_index_memory.md R143). -/
def bcdDigits (b : Byte) : List Byte :=
  [BitVec.ofNat 8 (b.toNat / 100), BitVec.ofNat 8 (b.toNat / 10 % 10), BitVec.ofNat 8 (b.toNat % 10)]

/-- A store of bytes from `I` upward: the whole range is checked first (R143, R144, R145). `I` does not move. -/
def storeAtIndex (bs : List Byte) (s : State) : State :=
  if InBounds s.index.toNat bs.length then { s with mem := s.mem.writeList s.index.toNat bs }
  else raiseError .memoryOutOfBounds s

/-- A load of `n` bytes from `I` upward into `V[0]`, `V[1]`, ...: the whole range is checked first (R144, R146). -/
def loadAtIndex (n : Nat) (s : State) : State :=
  if InBounds s.index.toNat n then s.setRegsFrom 0 (s.mem.readList s.index.toNat n)
  else raiseError .memoryOutOfBounds s

end Sys2Proof.Machine
end

