-- ==== Sys2Proof/Machine/ControlFlow.lean ====
section
/-! DEFINITION. The control-flow instructions (spec/41_control_flow.md). The state given is the one after fetch: `pc` is the
address of the instruction plus 2 (40_step_cycle.md R92). -/

namespace Sys2Proof.Machine

/-- RET, R100. -/
def execRet (s : State) : Result := .next (popThen (fun ra t => { t with pc := ra }) s)

/-- JP nnn, R101. -/
def execJp (nnn : BitVec 12) (s : State) : Result := .next { s with pc := zextAddr nnn }

/-- CALL nnn, R102: pushes the post-fetch PC. -/
def execCall (nnn : BitVec 12) (s : State) : Result :=
  .next (pushThen s.pc (fun t => { t with pc := zextAddr nnn }) s)

/-- SE Vx,nn, R103. -/
def execSeImm (x : RegNo) (nn : Byte) (s : State) : Result := .next (skipIf (s.reg x == nn) s)

/-- SNE Vx,nn, R104. -/
def execSneImm (x : RegNo) (nn : Byte) (s : State) : Result := .next (skipIf (s.reg x != nn) s)

/-- SE Vx,Vy, R105. -/
def execSeReg (x y : RegNo) (s : State) : Result := .next (skipIf (s.reg x == s.reg y) s)

/-- SNE Vx,Vy, R106. -/
def execSneReg (x y : RegNo) (s : State) : Result := .next (skipIf (s.reg x != s.reg y) s)

/-- JP V0,nnn, R108. -/
def execJpV0 (nnn : BitVec 12) (s : State) : Result := .next { s with pc := offsetTarget nnn s }

end Sys2Proof.Machine
end

