-- ==== Sys2Proof/Machine/DisplayUnit.lean ====
section
/-! DEFINITION. The display instructions (spec/44_display.md). -/

namespace Sys2Proof.Machine

/-- CLS, R150. -/
def execCls (s : State) : Result := .next { s with disp := Display.clear }

/-- DRW Vx,Vy,n, R152: anchor column `Vx`, row `Vy`, sprite at `I`; VF is written last and always. -/
def execDrw (x y : RegNo) (n : BitVec 4) (s : State) : Result :=
  let drawn := drawSprite s.mem s.index.toNat (s.reg x).toNat (s.reg y).toNat n.toNat s.disp
  .next ({ s with disp := drawn.1 }.setReg flagReg (flagByte drawn.2))

end Sys2Proof.Machine
end

