-- ==== Sys2Proof/Machine/IndexMemory.lean ====
section
/-! DEFINITION. The index-register and memory instructions (spec/43_index_memory.md). The memory instructions leave `I` as
they found it (R144). -/

namespace Sys2Proof.Machine

/-- LD I,nnn, R140. -/
def execLdI (nnn : BitVec 12) (s : State) : Result := .next { s with index := zextAddr nnn }

/-- ADD I,Vx, R141: modulo 65536, no flag. -/
def execAddI (x : RegNo) (s : State) : Result := .next { s with index := s.index + zextByte (s.reg x) }

/-- LD F,Vx, R142: `I := Vx`, with no multiplication by the glyph size (90_conflicts.md C5). -/
def execLdF (x : RegNo) (s : State) : Result := .next { s with index := zextByte (s.reg x) }

/-- LD B,Vx, R143. -/
def execLdB (x : RegNo) (s : State) : Result := .next (storeAtIndex (bcdDigits (s.reg x)) s)

/-- LD [I],Vx, R145. -/
def execStoreRegs (x : RegNo) (s : State) : Result := .next (storeAtIndex (s.regsUpTo x) s)

/-- LD Vx,[I], R146. -/
def execLoadRegs (x : RegNo) (s : State) : Result := .next (loadAtIndex (x.toNat + 1) s)

end Sys2Proof.Machine
end

