-- ==== Sys2Proof/Machine/KeysTimers.lean ====
section
/-! DEFINITION. The key and timer instructions (spec/45_timers_keys.md). The tick is the end of STEP, not of the
instruction (R167). -/

namespace Sys2Proof.Machine

/-- SKP Vx, R160. -/
def execSkp (x : RegNo) (s : State) : Result := .next (skipIf (keyDown x s) s)

/-- SKNP Vx, R161. -/
def execSknp (x : RegNo) (s : State) : Result := .next (skipIf (!keyDown x s) s)

/-- LD Vx,DT, R162. -/
def execLdVxDt (x : RegNo) (s : State) : Result := .next (s.setReg x s.dt)

/-- LD Vx,K, R163: with no key down the PC goes back to this instruction, else `Vx` is the index of a pressed key. -/
def execLdVxK (x : RegNo) (s : State) : Result :=
  .next (if s.key = 0 then { s with pc := s.pc - 2 } else s.setReg x (keyPick s.key))

/-- LD DT,Vx, R164. -/
def execLdDtVx (x : RegNo) (s : State) : Result := .next { s with dt := s.reg x }

/-- LD ST,Vx, R165. -/
def execLdStVx (x : RegNo) (s : State) : Result := .next { s with st := s.reg x }

end Sys2Proof.Machine
end

