-- ==== Sys2Proof/Machine/Step.lean ====
section
/-! DEFINITION. STEP (40_step_cycle.md R96): phases 0 to 6, each an operation of Machine/Ops.lean. -/

namespace Sys2Proof.Machine

/-- One STEP. A halted core does nothing (R97); the checks come in the order of 60_exceptions.md R178. -/
def step (s : State) : Host.Outcome State Fault Refusal :=
  if s.halt then .next s
  else
    match fetch s with
    | none => fetchFailed s
    | some op =>
      match decode op with
      | .unknownOpcode w => decodeFailed w s
      | .instr i => finishStep (exec i (advancePc s))

/-- `s` with a table row's word stored where `step` fetches its next instruction. -/
def State.withFetchWord (s : State) (nbits w : Nat) : State := s.putOpcode (tableWord nbits w)

end Sys2Proof.Machine
end

