-- ==== Sys2Proof/Machine/Moves.lean ====
section
/-! DEFINITION. The transactions of 00_scope.md R7: INIT, STEP with its input byte, the host's key writes, and the host's
reads between STEPs. `step` is the core's move; these are the host's. -/

namespace Sys2Proof.Machine

/-- INIT(rom), successful (70_reset_and_hazards.md R201): nothing of the old state survives (R205); only the model's own
input list and draw counter go on. -/
def loadProgram (rom : List Byte) (s : State) : State :=
  { State.reset with
    mem := Memory.writeList [] Config.progBase rom, rndIn := s.rndIn, freeCount := s.freeCount }

/-- INIT(rom), failing (R203): RomTooLarge, everything else unspecified, the key latch included. -/
def rejectProgram (s : State) : State :=
  { raiseError .romTooLarge s with key := Config.freeKey s.freeCount }

/-- INIT(rom) (R200, R201, R203). -/
def init (rom : List Byte) (s : State) : State :=
  if rom.length ≤ Config.romMax then loadProgram rom s else rejectProgram s

/-- A key write by the host between STEPs (10_state.md R29). -/
def setKey (k : BitVec 4) (down : Bool) (s : State) : State :=
  { s with key := if down then s.key ||| (1#16 <<< k.toNat) else s.key &&& ~~~(1#16 <<< k.toNat) }

/-- STEP(RND) (R7): one STEP whose input byte is `rnd`, whatever the instruction makes of it. -/
def stepWith (rnd : Byte) (s : State) : Result :=
  match step { s with rndIn := [rnd] } with
  | .next t => .next { t with rndIn := [] }
  | .fault r => .fault r
  | .refused r => .refused r

/-- The moves of the host (00_scope.md R6, R7). -/
inductive Move where
  | hostInit (rom : List Byte)
  | stepOnce (rnd : Byte)
  | writeKey (k : BitVec 4) (down : Bool)
  deriving DecidableEq, Repr

/-- What a move does. -/
def applyMove (m : Move) (s : State) : Result :=
  match m with
  | .hostInit rom => .next (init rom s)
  | .stepOnce rnd => stepWith rnd s
  | .writeKey k down => .next (setKey k down s)

/-- The host's display read (10_state.md R28): the pixel in row `r`, column `c`. -/
def pixelAt (s : State) (r : Fin 32) (c : Fin 64) : Bool := s.disp.pixel r.val c.val

/-- The host's sound read (R31). -/
def soundOn (s : State) : Bool := s.st != 0

/-- The host's status read (60_exceptions.md R176): HALT, ERR, ERR_OPCODE. -/
def status (s : State) : Bool × BitVec 3 × Word := (s.halt, s.err.number, s.errOpcode)

end Sys2Proof.Machine
end

