-- ==== Sys2Proof/Safety.lean ====
section
/-! DEFINITION. What a good state is: the invariant that every move keeps, and what it means to be running. -/

namespace Sys2Proof.Machine

/-- The core runs: no error has halted it (60_exceptions.md R181, 40_step_cycle.md R97). -/
def State.Running (s : State) : Prop := s.halt = false

/-- A running core reports no error (R176); its PC is no larger than any rule can make it, 0xFFF + 0xFF (10_state.md R16);
each live return address is at most 4096 (R16, 41_control_flow.md R100). -/
def State.RunningInv (s : State) : Prop :=
  s.err = .none ∧ s.pc.toNat ≤ 0x10FE ∧
    ∀ (k : Nat) (h : k < 16), k < s.sp.val → (s.stack[k]'h).toNat ≤ 4096

/-- The invariant: memory in canonical form always; the running facts while the core runs. Of a halted core the spec
defines nothing else (60_exceptions.md R175). -/
def State.Inv (s : State) : Prop := s.mem.wf ∧ (s.Running → s.RunningInv)

end Sys2Proof.Machine
end

