-- ==== Sys2Proof/Certificates/Slice0/Obligations.lean ====
section
/-! DEFINITION. The statements for the provers. First the vocabulary they are written in (what a statement says is left
unchanged, what taking an error leaves, which rows of the spec's tables name what), then one definition per statement. -/

namespace Sys2Proof.Claims

open Sys2Proof.Machine

/-- The pieces of state besides the general registers that an instruction may write. -/
inductive Part where
  | pc | index | mem | disp | sp | stack | dt | st | rnd
  deriving DecidableEq, Repr

/-- `t` keeps all of `s` but the registers `regs` and the parts listed; KEY, HALT, ERR and ERR_OPCODE are always kept.
Memory is kept byte by byte. -/
def KeptBut (regs : RegNo → Prop) (parts : List Part) (s t : State) : Prop :=
  (∀ r, ¬ regs r → t.reg r = s.reg r) ∧
  (Part.pc ∉ parts → t.pc = s.pc) ∧
  (Part.index ∉ parts → t.index = s.index) ∧
  (Part.mem ∉ parts → ∀ a, t.mem.read a = s.mem.read a) ∧
  (Part.disp ∉ parts → t.disp = s.disp) ∧
  (Part.sp ∉ parts → t.sp = s.sp) ∧
  (Part.stack ∉ parts → t.stack = s.stack) ∧
  (Part.dt ∉ parts → t.dt = s.dt) ∧
  (Part.st ∉ parts → t.st = s.st) ∧
  (Part.rnd ∉ parts → t.rndIn = s.rndIn) ∧
  t.key = s.key ∧ t.halt = s.halt ∧ t.err = s.err ∧ t.errOpcode = s.errOpcode

/-- No general register. -/
def noReg : RegNo → Prop := fun _ => False

/-- Every byte outside the `n` bytes from `lo` reads as before. -/
def MemKeptOutside (lo n : Nat) (s t : State) : Prop :=
  ∀ a, ¬ (lo ≤ a ∧ a < lo + n) → t.mem.read a = s.mem.read a

/-- What an error leaves defined (60_exceptions.md R181, R175): HALT, ERR, and the host's key latch as it was. -/
def ErrorTaken (e : ErrorKind) (s t : State) : Prop :=
  t.halt = true ∧ t.err = e ∧ t.key = s.key

/-- Two outcomes have the same status: HALT, ERR, and the offending opcode where the error has one. It is all the spec
defines of an outcome that is an error (60_exceptions.md R175, R176). -/
def SameStatus (t u : State) : Prop :=
  u.halt = t.halt ∧ u.err = t.err ∧ (t.err = .unknownOpcode → u.errOpcode = t.errOpcode)

/-- The operand bits of an instruction, each field shifted to its place (30_encoding.md R71, R84). -/
def operandBits : Instr → Word
  | .cls | .ret => 0
  | .jp nnn | .call nnn | .ldI nnn | .jpV0 nnn => nnn.setWidth 16
  | .seImm x nn | .sneImm x nn | .ldImm x nn | .addImm x nn | .rnd x nn => (x.setWidth 16 <<< 8) ||| nn.setWidth 16
  | .seReg x y | .sneReg x y | .ldReg x y | .orReg x y | .andReg x y | .xorReg x y | .addReg x y | .sub x y
  | .shr x y | .subn x y | .shl x y => (x.setWidth 16 <<< 8) ||| (y.setWidth 16 <<< 4)
  | .drw x y n => (x.setWidth 16 <<< 8) ||| (y.setWidth 16 <<< 4) ||| n.setWidth 16
  | .skp x | .sknp x | .ldVxDt x | .ldVxK x | .ldDtVx x | .ldStVx x | .addI x | .ldF x | .ldB x | .storeRegs x
  | .loadRegs x => x.setWidth 16 <<< 8

/-- A word is an instance of an instruction's row of the opcode map (30_encoding.md R72). -/
def MatchesRow (w : Word) (i : Instr) : Prop := w &&& (matchMask i).2 = (matchMask i).1

/-- The column "writes" of 10_state.md R12. -/
def writesReg (i : Instr) (s : State) (r : RegNo) : Prop :=
  match i with
  | .ldImm x _ | .addImm x _ | .rnd x _ | .ldVxDt x => r = x
  | .ldReg x _ | .orReg x _ | .andReg x _ | .xorReg x _ => r = x
  | .addReg x _ | .sub x _ | .shr x _ | .subn x _ | .shl x _ => r = x ∨ r = 0xF#4
  | .drw _ _ _ => r = 0xF#4
  | .ldVxK x => r = x ∧ s.key ≠ 0
  | .loadRegs x => r.toNat ≤ x.toNat
  | .cls | .ret | .jp _ | .call _ | .seImm _ _ | .sneImm _ _ | .seReg _ _ | .sneReg _ _ | .ldI _ | .jpV0 _
  | .skp _ | .sknp _ | .ldDtVx _ | .ldStVx _ | .addI _ | .ldF _ | .ldB _ | .storeRegs _ => False

/-- The column "reads" of 10_state.md R12. -/
def readsReg (i : Instr) (r : RegNo) : Prop :=
  match i with
  | .seImm x _ | .sneImm x _ | .addImm x _ | .shr x _ | .shl x _ => r = x
  | .seReg x y | .sneReg x y | .orReg x y | .andReg x y | .xorReg x y | .addReg x y | .sub x y | .subn x y
  | .drw x y _ => r = x ∨ r = y
  | .ldReg _ y => r = y
  | .jpV0 _ => r = 0x0#4
  | .skp x | .sknp x | .ldDtVx x | .ldStVx x | .addI x | .ldF x | .ldB x => r = x
  | .storeRegs x => r.toNat ≤ x.toNat
  | .ldImm _ _ | .rnd _ _ | .ldVxDt _ | .ldVxK _ | .loadRegs _ | .cls | .ret | .jp _ | .call _ | .ldI _ => False

/-- The state besides the general registers that each instruction writes (10_state.md section 1, column "written by"). -/
def partsWritten : Instr → List Part
  | .cls | .drw _ _ _ => [.disp]
  | .ret => [.pc, .sp]
  | .call _ => [.pc, .sp, .stack]
  | .jp _ | .jpV0 _ | .seImm _ _ | .sneImm _ _ | .seReg _ _ | .sneReg _ _ | .skp _ | .sknp _ | .ldVxK _ => [.pc]
  | .ldI _ | .addI _ | .ldF _ => [.index]
  | .ldB _ | .storeRegs _ => [.mem]
  | .ldDtVx _ => [.dt]
  | .ldStVx _ => [.st]
  | .rnd _ _ => [.rnd]
  | .ldImm _ _ | .addImm _ _ | .ldReg _ _ | .orReg _ _ | .andReg _ _ | .xorReg _ _ | .addReg _ _ | .sub _ _
  | .shr _ _ | .subn _ _ | .shl _ _ | .ldVxDt _ | .loadRegs _ => []

/-- How many bytes from `s.index.toNat` upward an instruction stores to (20_memory.md R56). -/
def bytesStored : Instr → Nat
  | .ldB _ => 3
  | .storeRegs x => x.toNat + 1
  | .cls | .ret | .jp _ | .call _ | .seImm _ _ | .sneImm _ _ | .seReg _ _ | .sneReg _ _ | .ldImm _ _ | .addImm _ _
  | .ldReg _ _ | .orReg _ _ | .andReg _ _ | .xorReg _ _ | .addReg _ _ | .sub _ _ | .shr _ _ | .subn _ _ | .shl _ _
  | .ldI _ | .jpV0 _ | .rnd _ _ | .drw _ _ _ | .skp _ | .sknp _ | .ldVxDt _ | .ldVxK _ | .ldDtVx _ | .ldStVx _
  | .addI _ | .ldF _ | .loadRegs _ => 0

/-- The call-stack entry an instruction stores to: that of index SP for CALL, none else (10_state.md R20). -/
def stackEntryStored (i : Instr) (s : State) (k : Nat) : Prop :=
  match i with
  | .call _ => k = s.sp.val
  | .cls | .ret | .jp _ | .seImm _ _ | .sneImm _ _ | .seReg _ _ | .sneReg _ _ | .ldImm _ _ | .addImm _ _
  | .ldReg _ _ | .orReg _ _ | .andReg _ _ | .xorReg _ _ | .addReg _ _ | .sub _ _ | .shr _ _ | .subn _ _ | .shl _ _
  | .ldI _ | .jpV0 _ | .rnd _ _ | .drw _ _ _ | .skp _ | .sknp _ | .ldVxDt _ | .ldVxK _ | .ldDtVx _ | .ldStVx _
  | .addI _ | .ldF _ | .ldB _ | .storeRegs _ | .loadRegs _ => False

/-- The table of 10_state.md R15: the PC after a STEP that ran `i` from the address `s.pc` without an error. -/
def PcAfter (i : Instr) (s t : State) : Prop :=
  let skip := fun (c : Bool) => t.pc.toNat = s.pc.toNat + if c then 4 else 2
  match i with
  | .ret => s.stack[s.sp.val - 1]? = some t.pc
  | .jp nnn | .call nnn => t.pc.toNat = nnn.toNat
  | .jpV0 nnn => t.pc.toNat = nnn.toNat + (s.reg 0).toNat
  | .seImm x nn => skip (s.reg x == nn)
  | .sneImm x nn => skip (s.reg x != nn)
  | .seReg x y => skip (s.reg x == s.reg y)
  | .sneReg x y => skip (s.reg x != s.reg y)
  | .skp x => skip (keyDown x s)
  | .sknp x => skip (!keyDown x s)
  | .ldVxK _ => t.pc.toNat = s.pc.toNat + if s.key = 0 then 0 else 2
  | .cls | .ldImm _ _ | .addImm _ _ | .ldReg _ _ | .orReg _ _ | .andReg _ _ | .xorReg _ _ | .addReg _ _ | .sub _ _
  | .shr _ _ | .subn _ _ | .shl _ _ | .ldI _ | .rnd _ _ | .drw _ _ _ | .ldVxDt _ | .ldDtVx _ | .ldStVx _
  | .addI _ | .ldF _ | .ldB _ | .storeRegs _ | .loadRegs _ => t.pc.toNat = s.pc.toNat + 2

/-- The table of 10_state.md R27: VF after an instruction. For DRW a toggled pixel that was on is one that is off after. -/
def FlagAfter (i : Instr) (s t : State) : Prop :=
  let vf := t.reg 0xF#4
  match i with
  | .addReg x y => vf = if (s.reg x).toNat + (s.reg y).toNat > 255 then 1 else 0
  | .sub x y => vf = if (s.reg x).toNat > (s.reg y).toNat then 1 else 0
  | .shr x _ => vf.toNat = (s.reg x).toNat % 2
  | .subn x y => vf = if (s.reg y).toNat > (s.reg x).toNat then 1 else 0
  | .shl x _ => vf.toNat = (s.reg x).toNat / 128
  | .drw _ _ _ =>
    ((∃ r c, s.disp.pixel r c = true ∧ t.disp.pixel r c = false) → vf = 1) ∧
    ((¬ ∃ r c, s.disp.pixel r c = true ∧ t.disp.pixel r c = false) → vf = 0)
  | .ldImm x _ | .addImm x _ | .rnd x _ | .ldVxDt x | .ldVxK x | .loadRegs x => x ≠ 0xF#4 → vf = s.reg 0xF#4
  | .ldReg x _ | .orReg x _ | .andReg x _ | .xorReg x _ => x ≠ 0xF#4 → vf = s.reg 0xF#4
  | .cls | .ret | .jp _ | .call _ | .seImm _ _ | .sneImm _ _ | .seReg _ _ | .sneReg _ _ | .ldI _ | .jpV0 _
  | .skp _ | .sknp _ | .ldDtVx _ | .ldStVx _ | .addI _ | .ldF _ | .ldB _ | .storeRegs _ => vf = s.reg 0xF#4

/-- The rows RET to LD Vx,[I] of the table of 60_exceptions.md R188. -/
def instrError (i : Instr) (s : State) : Option ErrorKind :=
  match i with
  | .ret => if s.sp.val = 0 then some .stackUnderflow else none
  | .call _ => if s.sp.val = 16 then some .stackOverflow else none
  | .ldB _ => if s.index.toNat + 3 > 4096 then some .memoryOutOfBounds else none
  | .storeRegs x | .loadRegs x => if s.index.toNat + x.toNat + 1 > 4096 then some .memoryOutOfBounds else none
  | .cls | .jp _ | .seImm _ _ | .sneImm _ _ | .seReg _ _ | .sneReg _ _ | .ldImm _ _ | .addImm _ _ | .ldReg _ _
  | .orReg _ _ | .andReg _ _ | .xorReg _ _ | .addReg _ _ | .sub _ _ | .shr _ _ | .subn _ _ | .shl _ _ | .ldI _
  | .jpV0 _ | .rnd _ _ | .drw _ _ _ | .skp _ | .sknp _ | .ldVxDt _ | .ldVxK _ | .ldDtVx _ | .ldStVx _ | .addI _
  | .ldF _ => none

/-- The opcode at `PC`, high byte first (20_memory.md R46). -/
def opcodeAt (s : State) : Word := opcodeOfBytes (s.mem.read s.pc.toNat) (s.mem.read (s.pc.toNat + 1))

/-- The whole table of R188 for STEP: fetch, then decode, then the instruction's own check. -/
def stepError (s : State) : Option ErrorKind :=
  if s.pc.toNat > 4094 then some .memoryOutOfBounds
  else
    match decode (opcodeAt s) with
    | .unknownOpcode _ => some .unknownOpcode
    | .instr i => instrError i s

/-- The sprite of a DRW covers the pixel in row `r`, column `c` (44_display.md R151, R152, R154, R155): the pixel lies
within `n` rows and 8 columns of the anchor, both axes wrapping, its row's byte lies in memory and its bit is set. -/
def SpriteCovers (m : Memory) (base ax ay n r c : Nat) : Prop :=
  let dr := (r + 256 - ay) % 32
  let dc := (c + 256 - ax) % 64
  dr < n ∧ base + dr ≤ 4095 ∧ dc < 8 ∧ (m.read (base + dr)).getLsbD (7 - dc) = true

/-- `k` error-free STEPs from `s` to `t`, none of which runs an instruction `w x` (a timer load). -/
def QuietSteps (w : RegNo → Instr) : Nat → State → State → Prop
  | 0, s, t => s = t
  | k + 1, s, t =>
    ∃ u, step s = .next u ∧ s.halt = false ∧ u.halt = false ∧
      (∀ op x, fetch s = some op → decode op ≠ .instr (w x)) ∧ QuietSteps w k u t

end Sys2Proof.Claims

open Sys2Proof Sys2Proof.Machine Sys2Proof.Claims

/-! ### Encoding -/

/-- Decoding an encoded instruction gives it back, every operand at every value (30_encoding.md R74, R84). -/
def Obligations.DecodeEncode : Prop := ∀ i : Instr, decode (encode i) = .instr i

/-- A word that decodes to an instruction is that instruction's word: no bit is dropped (R74, R77). -/
def Obligations.EncodeDecode : Prop := ∀ (w : Word) (i : Instr), decode w = .instr i → encode i = w

/-- The word is the row's match with the operand fields OR-ed in (R84). The numbers are R76's, log entry 6. -/
def Obligations.EncodeIsMatchOrOperands : Prop := ∀ i : Instr, encode i = (matchMask i).1 ||| operandBits i

/-- The decoder is the opcode map (R72, R74): a word is decoded to an instruction of a row exactly when it matches that row,
a word matching no row is rejected with itself, and so no word matches two rows. Numbers of R76, log entry 6. -/
def Obligations.DecoderIsTheOpcodeMap : Prop :=
  (∀ w i, MatchesRow w i → ∃ j, decode w = .instr j ∧ matchMask j = matchMask i) ∧
  (∀ w i, decode w = .instr i → MatchesRow w i) ∧
  (∀ w u, decode w = .unknownOpcode u → u = w ∧ ∀ i, ¬ MatchesRow w i)

/-- The rejected words are exactly those of R78's table of illegal words (matched strictly: decision D2, log entry 9). -/
def Obligations.IllegalWordsAreRejected : Prop :=
  ∀ w : Word, decode w = .unknownOpcode w ↔ legalWord w = false

/-- A few words written out from R76 and R71 decode to the instructions they stand for. -/
def Obligations.DecodeSanity : Prop :=
  decode 0x632A#16 = .instr (.ldImm 3 0x2A) ∧ decode 0xD5A3#16 = .instr (.drw 5 0xA 3) ∧
  decode 0xFA65#16 = .instr (.loadRegs 0xA) ∧ decode 0x1204#16 = .instr (.jp 0x204) ∧
  decode 0xE29E#16 = .instr (.skp 2) ∧ decode 0x8236#16 = .instr (.shr 2 3) ∧
  decode 0x0FFF#16 = .unknownOpcode 0x0FFF

/-! ### The STEP -/

/-- A STEP of a running core whose bytes at `PC` decode to `i` is `exec i` on the state with `PC` moved past them, and then,
unless that raised an error, one tick of both timers (40_step_cycle.md R91 to R96). -/
def Obligations.StepRunsTheDecodedInstruction : Prop :=
  ∀ (s t : State) (i : Instr), s.halt = false → s.pc.toNat + 2 ≤ 4096 → decode (opcodeAt s) = .instr i →
    exec i { s with pc := s.pc + 2 } = .next t →
    step s = .next (if t.halt then t else { t with dt := tickTimer t.dt, st := tickTimer t.st })

/-- The same from the bytes of an instruction: whatever instruction's two bytes stand at `PC`, high byte first, STEP runs it
(R46, R84, R96). -/
def Obligations.StepRunsEncodedBytes : Prop :=
  ∀ (s : State) (i : Instr), s.halt = false → s.pc.toNat + 2 ≤ 4096 →
    [s.mem.read s.pc.toNat, s.mem.read (s.pc.toNat + 1)] = encodeBytes i →
    ∃ t, exec i { s with pc := s.pc + 2 } = .next t ∧ step s = .next (endStep t)

/-- The fetch bounds check: with `PC` at 4095 or above STEP raises MemoryOutOfBounds whatever memory holds; at or below 4094,
odd or even, the two bytes are read (R90). -/
def Obligations.FetchBoundsCheck : Prop :=
  (∀ s : State, s.halt = false → s.pc.toNat > 4094 → ∃ t, step s = .next t ∧ ErrorTaken .memoryOutOfBounds s t) ∧
  (∀ s : State, s.pc.toNat ≤ 4094 → fetch s = some (opcodeAt s))

/-- A word matching none of the 34 instructions raises UnknownOpcode, and ERR_OPCODE is the word as fetched (R172). -/
def Obligations.UnknownOpcodeRecordsTheWord : Prop :=
  ∀ s : State, s.halt = false → s.pc.toNat ≤ 4094 → (∀ i, ¬ MatchesRow (opcodeAt s) i) →
    ∃ t, step s = .next t ∧ ErrorTaken .unknownOpcode s t ∧
      t.errOpcode = s.mem.read s.pc.toNat ++ s.mem.read (s.pc.toNat + 1)

/-- A STEP of a halted core changes nothing (R97; decision D11, log entry 1). -/
def Obligations.HaltedStepChangesNothing : Prop := ∀ s : State, s.halt = true → step s = .next s

/-- Errors by instruction (60_exceptions.md R188, R178): a STEP of a running core raises the error the table gives, in the
order fetch, decode, instruction, and none where the table gives none; INIT raises RomTooLarge above 3584 bytes only. -/
def Obligations.ErrorsByInstruction : Prop :=
  (∀ s : State, s.halt = false → ∃ t, step s = .next t ∧
    (∀ e, stepError s = some e → ErrorTaken e s t) ∧ (stepError s = none → t.halt = false ∧ t.err = s.err)) ∧
  (∀ (rom : List Byte) (s : State),
    (rom.length > 3584 → (init rom s).halt = true ∧ (init rom s).err = .romTooLarge) ∧
    (rom.length ≤ 3584 → (init rom s).halt = false))

/-- Every STEP answers a next state, from every state: no fault and no refusal (00_scope.md R8, 30_encoding.md R74). -/
def Obligations.StepIsTotal : Prop := ∀ s : State, ∃ t, step s = .next t

/-- How each instruction leaves PC (10_state.md R15). -/
def Obligations.PcAfterStep : Prop :=
  ∀ (s t : State) (i : Instr), s.halt = false → s.pc.toNat ≤ 4094 → decode (opcodeAt s) = .instr i →
    step s = .next t → t.halt = false → PcAfter i s t

/-- VF after each instruction, and after INIT (10_state.md R27). -/
def Obligations.FlagRegisterAfter : Prop :=
  (∀ (i : Instr) (s t : State), s.halt = false → exec i s = .next t → t.halt = false → FlagAfter i s t) ∧
  (∀ (rom : List Byte) (s : State), rom.length ≤ 3584 → (init rom s).reg 0xF#4 = 0)

/-- An error-free instruction writes only the registers of R12's column "writes" and the state 10_state.md section 1 says it
writes: I by LD I, ADD I, LD F; SP by CALL, RET; STACK by CALL, and of it only the entry of index SP; MEM by LD B, LD [I],Vx,
and of it only the 3 or `x + 1` bytes from `I`; DISP by CLS, DRW; KEY by none (R13, R19, R20, R23, R156). -/
def Obligations.OnlyItsOwnStateIsWritten : Prop :=
  ∀ (i : Instr) (s t : State), s.halt = false → exec i s = .next t → t.halt = false →
    KeptBut (writesReg i s) (partsWritten i) s t ∧
    MemKeptOutside s.index.toNat (bytesStored i) s t ∧
    (∀ k, ¬ stackEntryStored i s k → t.stack[k]? = s.stack[k]?)

/-- A register R12 does not list as read cannot influence an instruction: whatever it holds, the outcomes have the same
status, and where the instruction raises no error they differ at most in that register. Of an error's outcome nothing but
the status is compared (60_exceptions.md R175). -/
def Obligations.UnreadRegistersDoNotMatter : Prop :=
  ∀ (i : Instr) (s : State) (r : RegNo) (b : Byte), ¬ readsReg i r →
    ∃ t u, exec i s = .next t ∧ exec i (s.setReg r b) = .next u ∧ SameStatus t u ∧
      (instrError i s = none → (∀ q, q ≠ r → u.reg q = t.reg q) ∧ { u with v := t.v } = t)

/-- The key latch: STEP never writes it, INIT clears all sixteen flags (R23). -/
def Obligations.KeyLatchIsTheHosts : Prop :=
  (∀ s t : State, step s = .next t → t.key = s.key) ∧
  (∀ (rom : List Byte) (s : State), rom.length ≤ 3584 → ∀ k, (init rom s).key.getLsbD k = false)

/-- The host's key write sets or clears exactly the flag it names and leaves every other piece of state as it was (10_state.md
R29; it is a move of its own beside STEP, log entry 14). -/
def Obligations.KeyWriteSetsOneFlag : Prop :=
  ∀ (k : BitVec 4) (down : Bool) (s : State), ∃ t, applyMove (.writeKey k down) s = .next t ∧
    (∀ j, t.key.getLsbD j = if j = k.toNat then down else s.key.getLsbD j) ∧ { t with key := s.key } = s

/-- The key latch influences a STEP only through SKP, SKNP and LD Vx,K (40_step_cycle.md R98): with another latch the outcome
has the same status, and where the STEP raises no error (`t.halt = s.halt`) it is the same state but for the latch. Of an
error's outcome nothing but the status is compared (60_exceptions.md R175). -/
def Obligations.KeysReachOnlyKeyInstructions : Prop :=
  ∀ (s : State) (k : BitVec 16),
    (∀ x, decode (opcodeAt s) ≠ .instr (.skp x) ∧ decode (opcodeAt s) ≠ .instr (.sknp x) ∧
      decode (opcodeAt s) ≠ .instr (.ldVxK x)) →
    ∃ t u, step s = .next t ∧ step { s with key := k } = .next u ∧ SameStatus t u ∧
      (t.halt = s.halt → u = { t with key := k })

/-- The input byte influences a STEP only through RND (R98): with another byte the outcome has the same status, and where the
STEP raises no error it is the same state. Of an error's outcome nothing but the status is compared (R175). -/
def Obligations.RandomByteReachesOnlyRnd : Prop :=
  ∀ (s : State) (b c : Byte), (∀ x nn, decode (opcodeAt s) ≠ .instr (.rnd x nn)) →
    ∃ t u, stepWith b s = .next t ∧ stepWith c s = .next u ∧ SameStatus t u ∧ (t.halt = s.halt → u = t)

/-- No instruction reads ST: its value influences nothing but itself (10_state.md R18). Of an error's outcome nothing but the
status is compared (R175). -/
def Obligations.SoundTimerIsNeverRead : Prop :=
  ∀ (s : State) (b : Byte),
    ∃ t u, step s = .next t ∧ step { s with st := b } = .next u ∧ SameStatus t u ∧
      (t.halt = s.halt → { u with st := t.st } = t)

/-! ### Invariants and whole-machine rules -/

/-- The state after reset meets the invariant. -/
def Obligations.ResetMeetsTheInvariant : Prop := State.reset.Inv

/-- Every STEP keeps the invariant: memory stays canonical, a running core reports no error (60_exceptions.md R176), its PC
stays at most 0x10FE and its live return addresses at most 4096 (10_state.md R16). -/
def Obligations.StepKeepsTheInvariant : Prop := ∀ s t : State, s.Inv → step s = .next t → t.Inv

/-- So does every move of the host: INIT, a STEP with any input byte, a key write. -/
def Obligations.MovesKeepTheInvariant : Prop :=
  ∀ (m : Move) (s t : State), s.Inv → applyMove m s = .next t → t.Inv

/-- The only exit from HALT is a successful INIT: a halted core ignores STEP, keeps its error, and no key write frees it; the
INIT keeps nothing of the failed run (60_exceptions.md R182). ERR_OPCODE, unspecified after INIT (10_state.md R26), and the
model's own two fields are left out of the comparison. -/
def Obligations.OnlyInitLeavesHalt : Prop :=
  (∀ (m : Move) (s t : State), s.halt = true → applyMove m s = .next t → t.halt = false →
    ∃ rom, m = .hostInit rom ∧ rom.length ≤ 3584) ∧
  (∀ (rnd : Byte) (s t : State), s.halt = true → stepWith rnd s = .next t → { t with rndIn := s.rndIn } = s) ∧
  (∀ (rom : List Byte) (s u : State), rom.length ≤ 3584 →
    { init rom s with errOpcode := 0, rndIn := [], freeCount := 0 } =
      { init rom u with errOpcode := 0, rndIn := [], freeCount := 0 })

/-- Two canonical memories that read alike at every address of the image are the same data. -/
def Obligations.MemoryFormIsCanonical : Prop :=
  ∀ m k : Memory, m.wf → k.wf → (∀ a, a < 4096 → m.read a = k.read a) → m = k

/-- The tick ends every error-free STEP: it acts on the timers the instruction left, and never goes below 0
(45_timers_keys.md R164, R165, R167). -/
def Obligations.TimersTickOncePerStep : Prop :=
  ∀ (s t : State) (i : Instr), s.halt = false → s.pc.toNat ≤ 4094 → decode (opcodeAt s) = .instr i →
    step s = .next t → t.halt = false →
    (∀ x, i = .ldDtVx x → t.dt.toNat = (s.reg x).toNat - 1) ∧
    ((∀ x, i ≠ .ldDtVx x) → t.dt.toNat = s.dt.toNat - 1) ∧
    (∀ x, i = .ldStVx x → t.st.toNat = (s.reg x).toNat - 1) ∧
    ((∀ x, i ≠ .ldStVx x) → t.st.toNat = s.st.toNat - 1)

/-- A timer that holds `v` holds `max(v - k, 0)` after `k` error-free STEPs that do not write it (R168 (b)). -/
def Obligations.TimersCountDown : Prop :=
  (∀ (k : Nat) (s t : State), QuietSteps .ldDtVx k s t → t.dt.toNat = s.dt.toNat - k) ∧
  (∀ (k : Nat) (s t : State), QuietSteps .ldStVx k s t → t.st.toNat = s.st.toNat - k)

/-- A store is seen by the next fetch, the byte at the lower address as the high byte (20_memory.md R46, R55). -/
def Obligations.StoresReachTheNextFetch : Prop :=
  ∀ (x : RegNo) (s : State), s.mem.wf → 1 ≤ x.toNat → s.index.toNat + x.toNat + 1 ≤ 4096 →
    ∃ t, exec (.storeRegs x) s = .next t ∧
      fetch { t with pc := s.index } = some (opcodeOfBytes (s.reg 0x0#4) (s.reg 0x1#4))

/-! ### INIT -/

/-- INIT with at most 3584 bytes builds the state of 10_state.md R26, whatever came before. The font bytes are R44's (log
entry 7); the PC, HALT and ERR lines are R201's. -/
def Obligations.InitBuildsTheResetState : Prop :=
  ∀ (rom : List Byte) (s t : State), rom.length ≤ 3584 → t = init rom s →
    (∀ r, t.reg r = 0) ∧ t.index = 0 ∧ t.pc = 0x0200 ∧ t.dt = 0 ∧ t.st = 0 ∧ t.sp.val = 0 ∧
    (∀ k, k < 16 → t.stack[k]? = some 0) ∧
    (∀ a, a < 4096 → t.mem.read a =
      if a < 80 then fontTable.getD a 0
      else if 0x200 ≤ a ∧ a < 0x200 + rom.length then rom.getD (a - 0x200) 0 else 0) ∧
    (∀ r c, t.disp.pixel r c = false) ∧ t.key = 0 ∧ t.halt = false ∧ t.err = .none

/-- RomTooLarge (60_exceptions.md R171): INIT raises it above 3584 bytes; exactly 3584 bytes are accepted and fill memory to
0xFFF; INIT raises no other error, and no STEP raises this one. -/
def Obligations.InitRejectsALargeProgram : Prop :=
  (∀ (rom : List Byte) (s : State), rom.length > 3584 → (init rom s).halt = true ∧ (init rom s).err = .romTooLarge) ∧
  (∀ (rom : List Byte) (s : State), rom.length ≤ 3584 → (init rom s).halt = false ∧ (init rom s).err = .none) ∧
  (∀ (rom : List Byte) (s : State), rom.length = 3584 →
    ∀ k, k < 3584 → some ((init rom s).mem.read (0x200 + k)) = rom[k]?) ∧
  (∀ s t : State, s.halt = false → step s = .next t → t.halt = true → t.err ≠ .romTooLarge)

/-- The reset state is the one INIT builds from an empty program, and its first STEP raises UnknownOpcode(0x0000) (R202). That
`State.reset` is INIT of the empty program is the model's choice (log entry 12); that INIT accepts it is the spec's decision
D27 (log entry 9). -/
def Obligations.ResetRunsIntoAnIllegalWord : Prop :=
  State.reset = init [] State.reset ∧
  ∃ t, step State.reset = .next t ∧ ErrorTaken .unknownOpcode State.reset t ∧ t.errOpcode = 0x0000

/-! ### Control flow (41_control_flow.md); `s.pc` is the post-fetch PC -/

/-- RET (R100): with a return address held it pops into PC; with none it raises StackUnderflow. -/
def Obligations.ReturnPops : Prop :=
  (∀ s : State, s.sp.val ≠ 0 → ∃ t, exec .ret s = .next t ∧ t.sp.val = s.sp.val - 1 ∧
    s.stack[s.sp.val - 1]? = some t.pc ∧ t.stack = s.stack ∧ KeptBut noReg [.pc, .sp] s t) ∧
  (∀ s : State, s.sp.val = 0 → ∃ t, exec .ret s = .next t ∧ ErrorTaken .stackUnderflow s t)

/-- CALL nnn (R102): pushes the post-fetch PC and jumps; with 16 return addresses held it raises StackOverflow. -/
def Obligations.CallPushes : Prop :=
  (∀ (nnn : BitVec 12) (s : State), s.sp.val < 16 → ∃ t, exec (.call nnn) s = .next t ∧
    t.sp.val = s.sp.val + 1 ∧ t.stack[s.sp.val]? = some s.pc ∧
    (∀ k, k ≠ s.sp.val → t.stack[k]? = s.stack[k]?) ∧ t.pc.toNat = nnn.toNat ∧
    KeptBut noReg [.pc, .sp, .stack] s t) ∧
  (∀ (nnn : BitVec 12) (s : State), s.sp.val = 16 → ∃ t, exec (.call nnn) s = .next t ∧ ErrorTaken .stackOverflow s t)

/-- JP nnn (R101) and JP V0,nnn (R108): the target, not reduced to 12 bits, and nothing else. -/
def Obligations.JumpsSetPc : Prop :=
  (∀ (nnn : BitVec 12) (s : State), ∃ t, exec (.jp nnn) s = .next t ∧ t.pc.toNat = nnn.toNat ∧
    KeptBut noReg [.pc] s t) ∧
  (∀ (nnn : BitVec 12) (s : State), ∃ t, exec (.jpV0 nnn) s = .next t ∧
    t.pc.toNat = nnn.toNat + (s.reg 0x0#4).toNat ∧ KeptBut noReg [.pc] s t)

/-- The four comparing skips (R103 to R106): PC moves on by 2 exactly when the condition holds. -/
def Obligations.SkipsCompare : Prop :=
  (∀ (x : RegNo) (nn : Byte) (s : State), ∃ t, exec (.seImm x nn) s = .next t ∧
    t.pc = (if s.reg x = nn then s.pc + 2 else s.pc) ∧ KeptBut noReg [.pc] s t) ∧
  (∀ (x : RegNo) (nn : Byte) (s : State), ∃ t, exec (.sneImm x nn) s = .next t ∧
    t.pc = (if s.reg x ≠ nn then s.pc + 2 else s.pc) ∧ KeptBut noReg [.pc] s t) ∧
  (∀ (x y : RegNo) (s : State), ∃ t, exec (.seReg x y) s = .next t ∧
    t.pc = (if s.reg x = s.reg y then s.pc + 2 else s.pc) ∧ KeptBut noReg [.pc] s t) ∧
  (∀ (x y : RegNo) (s : State), ∃ t, exec (.sneReg x y) s = .next t ∧
    t.pc = (if s.reg x ≠ s.reg y then s.pc + 2 else s.pc) ∧ KeptBut noReg [.pc] s t)

/-! ### Registers and arithmetic (42_alu.md) -/

/-- LD Vx,nn (R122) and ADD Vx,nn (R123, modulo 256, no flag), for every register, VF among them. -/
def Obligations.ImmediateLoadAndAdd : Prop :=
  (∀ (x : RegNo) (nn : Byte) (s : State), ∃ t, exec (.ldImm x nn) s = .next t ∧ t.reg x = nn ∧
    KeptBut (· = x) [] s t) ∧
  (∀ (x : RegNo) (nn : Byte) (s : State), ∃ t, exec (.addImm x nn) s = .next t ∧
    (t.reg x).toNat = ((s.reg x).toNat + nn.toNat) % 256 ∧ KeptBut (· = x) [] s t)

/-- LD Vx,Vy, OR, AND, XOR (R124 to R127), bit by bit, with no flag: VF is kept unless it is `Vx`. -/
def Obligations.RegisterLogic : Prop :=
  (∀ (x y : RegNo) (s : State), ∃ t, exec (.ldReg x y) s = .next t ∧ t.reg x = s.reg y ∧ KeptBut (· = x) [] s t) ∧
  (∀ (x y : RegNo) (s : State), ∃ t, exec (.orReg x y) s = .next t ∧
    (∀ k, (t.reg x).getLsbD k = ((s.reg x).getLsbD k || (s.reg y).getLsbD k)) ∧ KeptBut (· = x) [] s t) ∧
  (∀ (x y : RegNo) (s : State), ∃ t, exec (.andReg x y) s = .next t ∧
    (∀ k, (t.reg x).getLsbD k = ((s.reg x).getLsbD k && (s.reg y).getLsbD k)) ∧ KeptBut (· = x) [] s t) ∧
  (∀ (x y : RegNo) (s : State), ∃ t, exec (.xorReg x y) s = .next t ∧
    (∀ k, (t.reg x).getLsbD k = ((s.reg x).getLsbD k ^^ (s.reg y).getLsbD k)) ∧ KeptBut (· = x) [] s t)

/-- ADD Vx,Vy (R128): the sum modulo 256 and the carry. With `x` VF, VF ends as the carry (decision D6, log entry 9). -/
def Obligations.AddRegistersCarries : Prop :=
  ∀ (x y : RegNo) (s : State), ∃ t, exec (.addReg x y) s = .next t ∧
    t.reg 0xF#4 = (if (s.reg x).toNat + (s.reg y).toNat > 255 then 1 else 0) ∧
    (x ≠ 0xF#4 → (t.reg x).toNat = ((s.reg x).toNat + (s.reg y).toNat) % 256) ∧
    KeptBut (fun r => r = x ∨ r = 0xF#4) [] s t

/-- SUB and SUBN (R129, R131): the difference modulo 256; VF is 1 exactly when the minuend is strictly greater (decision D3),
and stays so with `x` VF (decision D6, log entry 9). -/
def Obligations.SubtractsCompareStrictly : Prop :=
  (∀ (x y : RegNo) (s : State), ∃ t, exec (.sub x y) s = .next t ∧
    t.reg 0xF#4 = (if (s.reg x).toNat > (s.reg y).toNat then 1 else 0) ∧
    (x ≠ 0xF#4 → (t.reg x).toNat = ((s.reg x).toNat + 256 - (s.reg y).toNat) % 256) ∧
    KeptBut (fun r => r = x ∨ r = 0xF#4) [] s t) ∧
  (∀ (x y : RegNo) (s : State), ∃ t, exec (.subn x y) s = .next t ∧
    t.reg 0xF#4 = (if (s.reg y).toNat > (s.reg x).toNat then 1 else 0) ∧
    (x ≠ 0xF#4 → (t.reg x).toNat = ((s.reg y).toNat + 256 - (s.reg x).toNat) % 256) ∧
    KeptBut (fun r => r = x ∨ r = 0xF#4) [] s t)

/-- SHR and SHL (R130, R132): halved and doubled, the bit shifted out in VF; `y` has no effect (30_encoding.md R77). With `x`
VF the flag remains (decision D6, log entry 9). -/
def Obligations.ShiftsByOne : Prop :=
  (∀ (x y : RegNo) (s : State), ∃ t, exec (.shr x y) s = .next t ∧ exec (.shr x 0) s = .next t ∧
    (t.reg 0xF#4).toNat = (s.reg x).toNat % 2 ∧ (x ≠ 0xF#4 → (t.reg x).toNat = (s.reg x).toNat / 2) ∧
    KeptBut (fun r => r = x ∨ r = 0xF#4) [] s t) ∧
  (∀ (x y : RegNo) (s : State), ∃ t, exec (.shl x y) s = .next t ∧ exec (.shl x 0) s = .next t ∧
    (t.reg 0xF#4).toNat = (s.reg x).toNat / 128 ∧ (x ≠ 0xF#4 → (t.reg x).toNat = (s.reg x).toNat * 2 % 256) ∧
    KeptBut (fun r => r = x ∨ r = 0xF#4) [] s t)

/-- RND Vx,nn (R133): some byte AND nn, every byte being possible as the STEP's input (decision D5, log entry 3). -/
def Obligations.RandomIsMasked : Prop :=
  (∀ (x : RegNo) (nn : Byte) (s : State), ∃ t b, exec (.rnd x nn) s = .next t ∧ t.reg x = b &&& nn ∧
    (∀ c, s.rndIn.head? = some c → b = c) ∧ KeptBut (· = x) [.rnd] s t) ∧
  (∀ (x : RegNo) (nn b : Byte) (s : State), ∃ t, exec (.rnd x nn) { s with rndIn := [b] } = .next t ∧
    t.reg x = b &&& nn)

/-! ### Index register and memory (43_index_memory.md) -/

/-- LD I,nnn (R140), ADD I,Vx (R141: modulo 65536, no flag), LD F,Vx (R142: `I := Vx`, no multiplication). -/
def Obligations.IndexRegisterWrites : Prop :=
  (∀ (nnn : BitVec 12) (s : State), ∃ t, exec (.ldI nnn) s = .next t ∧ t.index.toNat = nnn.toNat ∧
    KeptBut noReg [.index] s t) ∧
  (∀ (x : RegNo) (s : State), ∃ t, exec (.addI x) s = .next t ∧
    t.index.toNat = (s.index.toNat + (s.reg x).toNat) % 65536 ∧ KeptBut noReg [.index] s t) ∧
  (∀ (x : RegNo) (s : State), ∃ t, exec (.ldF x) s = .next t ∧ t.index.toNat = (s.reg x).toNat ∧
    KeptBut noReg [.index] s t)

/-- LD B,Vx (R143): the three digits at `I`, `I + 1`, `I + 2`, `I` unmoved; MemoryOutOfBounds when `I > 4093`. The premise
`wf` is part of the invariant every move keeps. -/
def Obligations.StoreBcdWritesDigits : Prop :=
  (∀ (x : RegNo) (s : State), s.mem.wf → s.index.toNat + 3 ≤ 4096 → ∃ t, exec (.ldB x) s = .next t ∧
    (t.mem.read s.index.toNat).toNat = (s.reg x).toNat / 100 ∧
    (t.mem.read (s.index.toNat + 1)).toNat = (s.reg x).toNat / 10 % 10 ∧
    (t.mem.read (s.index.toNat + 2)).toNat = (s.reg x).toNat % 10 ∧
    MemKeptOutside s.index.toNat 3 s t ∧ KeptBut noReg [.mem] s t) ∧
  (∀ (x : RegNo) (s : State), s.index.toNat > 4093 → ∃ t, exec (.ldB x) s = .next t ∧
    ErrorTaken .memoryOutOfBounds s t)

/-- LD [I],Vx (R145): `V0` to `Vx` at `I` upward, `I` unmoved; MemoryOutOfBounds when `I + x > 4095`. -/
def Obligations.StoreRegistersWritesMemory : Prop :=
  (∀ (x : RegNo) (s : State), s.mem.wf → s.index.toNat + x.toNat + 1 ≤ 4096 →
    ∃ t, exec (.storeRegs x) s = .next t ∧
    (∀ r : RegNo, r.toNat ≤ x.toNat → t.mem.read (s.index.toNat + r.toNat) = s.reg r) ∧
    MemKeptOutside s.index.toNat (x.toNat + 1) s t ∧ KeptBut noReg [.mem] s t) ∧
  (∀ (x : RegNo) (s : State), s.index.toNat + x.toNat > 4095 → ∃ t, exec (.storeRegs x) s = .next t ∧
    ErrorTaken .memoryOutOfBounds s t)

/-- LD Vx,[I] (R146): `V0` to `Vx` from `I` upward, the registers above `Vx` and `I` unmoved; MemoryOutOfBounds when
`I + x > 4095`. -/
def Obligations.LoadRegistersReadsMemory : Prop :=
  (∀ (x : RegNo) (s : State), s.index.toNat + x.toNat + 1 ≤ 4096 → ∃ t, exec (.loadRegs x) s = .next t ∧
    (∀ r : RegNo, r.toNat ≤ x.toNat → t.reg r = s.mem.read (s.index.toNat + r.toNat)) ∧
    KeptBut (fun r => r.toNat ≤ x.toNat) [] s t) ∧
  (∀ (x : RegNo) (s : State), s.index.toNat + x.toNat > 4095 → ∃ t, exec (.loadRegs x) s = .next t ∧
    ErrorTaken .memoryOutOfBounds s t)

/-! ### Display (44_display.md) -/

/-- CLS (R150): every pixel off, nothing else touched. -/
def Obligations.ClearTurnsEveryPixelOff : Prop :=
  ∀ s : State, ∃ t, exec .cls s = .next t ∧ (∀ r c, t.disp.pixel r c = false) ∧ KeptBut noReg [.disp] s t

/-- DRW Vx,Vy,n (R152 to R155), pixel by pixel: the pixels the sprite covers are toggled, the others kept; VF is 1 exactly
when a covered pixel was on; no error for any address. The bit order and the anchor are the spec's general knowledge (log
entry 8). -/
def Obligations.DrawTogglesCoveredPixels : Prop :=
  ∀ (x y : RegNo) (n : BitVec 4) (s : State), ∃ t, exec (.drw x y n) s = .next t ∧
    (∀ r c, r < 32 → c < 64 →
      (SpriteCovers s.mem s.index.toNat (s.reg x).toNat (s.reg y).toNat n.toNat r c →
        t.disp.pixel r c = !s.disp.pixel r c) ∧
      (¬ SpriteCovers s.mem s.index.toNat (s.reg x).toNat (s.reg y).toNat n.toNat r c →
        t.disp.pixel r c = s.disp.pixel r c)) ∧
    ((∃ r c, r < 32 ∧ c < 64 ∧ SpriteCovers s.mem s.index.toNat (s.reg x).toNat (s.reg y).toNat n.toNat r c ∧
        s.disp.pixel r c = true) → t.reg 0xF#4 = 1) ∧
    ((∀ r c, r < 32 → c < 64 → SpriteCovers s.mem s.index.toNat (s.reg x).toNat (s.reg y).toNat n.toNat r c →
        s.disp.pixel r c = false) → t.reg 0xF#4 = 0) ∧
    KeptBut (· = 0xF#4) [.disp] s t

/-! ### Keys and timers (45_timers_keys.md) -/

/-- SKP (R160) and SKNP (R161): the low four bits of `Vx` select the key (decision D7, log entry 9). -/
def Obligations.KeySkipsTestTheLatch : Prop :=
  (∀ (x : RegNo) (s : State), ∃ t, exec (.skp x) s = .next t ∧
    t.pc = (if s.key.getLsbD ((s.reg x).toNat % 16) = true then s.pc + 2 else s.pc) ∧ KeptBut noReg [.pc] s t) ∧
  (∀ (x : RegNo) (s : State), ∃ t, exec (.sknp x) s = .next t ∧
    t.pc = (if s.key.getLsbD ((s.reg x).toNat % 16) = false then s.pc + 2 else s.pc) ∧ KeptBut noReg [.pc] s t)

/-- LD Vx,DT (R162), LD DT,Vx (R164), LD ST,Vx (R165), before the tick of their STEP. -/
def Obligations.TimerMoves : Prop :=
  (∀ (x : RegNo) (s : State), ∃ t, exec (.ldVxDt x) s = .next t ∧ t.reg x = s.dt ∧ KeptBut (· = x) [] s t) ∧
  (∀ (x : RegNo) (s : State), ∃ t, exec (.ldDtVx x) s = .next t ∧ t.dt = s.reg x ∧ KeptBut noReg [.dt] s t) ∧
  (∀ (x : RegNo) (s : State), ∃ t, exec (.ldStVx x) s = .next t ∧ t.st = s.reg x ∧ KeptBut noReg [.st] s t)

/-- LD Vx,K (R163): with no key down PC goes back by 2 and nothing else changes; else `Vx` is the index of a pressed key,
whatever KEYPICK is, and PC stays. The write of `Vx` is the spec's general knowledge (decision D8, log entries 4 and 11). -/
def Obligations.WaitForKeyPolls : Prop :=
  (∀ (x : RegNo) (s : State), s.key = 0 → ∃ t, exec (.ldVxK x) s = .next t ∧ t.pc = s.pc - 2 ∧
    KeptBut noReg [.pc] s t) ∧
  (∀ (x : RegNo) (s : State), s.key ≠ 0 → ∃ t, exec (.ldVxK x) s = .next t ∧
    (t.reg x).toNat < 16 ∧ s.key.getLsbD (t.reg x).toNat = true ∧ KeptBut (· = x) [] s t)
end

