-- ==== Sys2Proof/Laws/Decode.lean ====
section
/-! SUPPORT. The fields of an encoded word, one lemma per format and field (30_encoding.md R71, R72, R84), the bytes of an
opcode put together again (20_memory.md R46), and the fields as quotients and remainders of the word. -/

namespace Sys2Proof

theorem fieldFam_encodeNNN (f : BitVec 4) (nnn : BitVec 12) : fieldFam (encodeNNN f nnn) = f := by
  apply BitVec.eq_of_getLsbD_eq; intro i hi
  simp only [fieldFam, encodeNNN, BitVec.getLsbD_extractLsb', BitVec.getLsbD_append]
  have : 12 + i - 12 = i := by omega
  simp [hi, this]

theorem fieldNNN_encodeNNN (f : BitVec 4) (nnn : BitVec 12) : fieldNNN (encodeNNN f nnn) = nnn := by
  apply BitVec.eq_of_getLsbD_eq; intro i hi
  simp only [fieldNNN, encodeNNN, BitVec.getLsbD_extractLsb', BitVec.getLsbD_append]
  simp [hi]

theorem fieldFam_encodeXNN (f : BitVec 4) (x : RegNo) (nn : Byte) : fieldFam (encodeXNN f x nn) = f := by
  apply BitVec.eq_of_getLsbD_eq; intro i hi
  simp only [fieldFam, encodeXNN, BitVec.getLsbD_extractLsb', BitVec.getLsbD_append]
  have h1 : ¬ 12 + i < 8 := by omega
  have h2 : ¬ 12 + i - 8 < 4 := by omega
  have h3 : 12 + i - 8 - 4 = i := by omega
  simp [hi, h1, h2, h3]

theorem fieldX_encodeXNN (f : BitVec 4) (x : RegNo) (nn : Byte) : fieldX (encodeXNN f x nn) = x := by
  apply BitVec.eq_of_getLsbD_eq; intro i hi
  simp only [fieldX, encodeXNN, BitVec.getLsbD_extractLsb', BitVec.getLsbD_append]
  have h1 : ¬ 8 + i < 8 := by omega
  have h3 : 8 + i - 8 = i := by omega
  simp [hi, h3]

theorem fieldNN_encodeXNN (f : BitVec 4) (x : RegNo) (nn : Byte) : fieldNN (encodeXNN f x nn) = nn := by
  apply BitVec.eq_of_getLsbD_eq; intro i hi
  simp only [fieldNN, encodeXNN, BitVec.getLsbD_extractLsb', BitVec.getLsbD_append]
  simp [hi]

theorem fieldFam_encodeXYN (f : BitVec 4) (x y : RegNo) (n : BitVec 4) : fieldFam (encodeXYN f x y n) = f := by
  apply BitVec.eq_of_getLsbD_eq; intro i hi
  simp only [fieldFam, encodeXYN, BitVec.getLsbD_extractLsb', BitVec.getLsbD_append]
  have h1 : ¬ 12 + i < 4 := by omega
  have h2 : ¬ 12 + i - 4 < 4 := by omega
  have h3 : ¬ 12 + i - 4 - 4 < 4 := by omega
  have h4 : 12 + i - 4 - 4 - 4 = i := by omega
  simp [hi, h1, h2, h3, h4]

theorem fieldX_encodeXYN (f : BitVec 4) (x y : RegNo) (n : BitVec 4) : fieldX (encodeXYN f x y n) = x := by
  apply BitVec.eq_of_getLsbD_eq; intro i hi
  simp only [fieldX, encodeXYN, BitVec.getLsbD_extractLsb', BitVec.getLsbD_append]
  have h1 : ¬ 8 + i < 4 := by omega
  have h2 : ¬ 8 + i - 4 < 4 := by omega
  have h4 : 8 + i - 4 - 4 = i := by omega
  simp [hi, h1, h2, h4]

theorem fieldY_encodeXYN (f : BitVec 4) (x y : RegNo) (n : BitVec 4) : fieldY (encodeXYN f x y n) = y := by
  apply BitVec.eq_of_getLsbD_eq; intro i hi
  simp only [fieldY, encodeXYN, BitVec.getLsbD_extractLsb', BitVec.getLsbD_append]
  have h1 : ¬ 4 + i < 4 := by omega
  have h4 : 4 + i - 4 = i := by omega
  simp [hi, h4]

theorem fieldN_encodeXYN (f : BitVec 4) (x y : RegNo) (n : BitVec 4) : fieldN (encodeXYN f x y n) = n := by
  apply BitVec.eq_of_getLsbD_eq; intro i hi
  simp only [fieldN, encodeXYN, BitVec.getLsbD_extractLsb', BitVec.getLsbD_append]
  simp [hi]

/-- A word's two bytes make the word. -/
theorem opcodeOfBytes_hi_lo (op : Word) : opcodeOfBytes (opcodeHi op) (opcodeLo op) = op := by
  apply BitVec.eq_of_getLsbD_eq; intro i hi
  simp only [opcodeOfBytes, opcodeHi, opcodeLo, BitVec.getLsbD_append, BitVec.getLsbD_extractLsb']
  by_cases h : i < 8
  · simp [h]
  · have : 8 + (i - 8) = i := by omega
    simp [h, this, show i - 8 < 8 by omega]

@[simp] theorem opcodeHi_ofBytes (hi lo : Byte) : opcodeHi (opcodeOfBytes hi lo) = hi := by
  apply BitVec.eq_of_getLsbD_eq; intro i h
  simp only [opcodeHi, opcodeOfBytes, BitVec.getLsbD_extractLsb', BitVec.getLsbD_append]
  have h2 : 8 + i - 8 = i := by omega
  simp [h, h2]

@[simp] theorem opcodeLo_ofBytes (hi lo : Byte) : opcodeLo (opcodeOfBytes hi lo) = lo := by
  apply BitVec.eq_of_getLsbD_eq; intro i h
  simp only [opcodeLo, opcodeOfBytes, BitVec.getLsbD_extractLsb', BitVec.getLsbD_append]
  simp [h]

/-- A nibble is one of sixteen values: the case split of decoding by family or sub-opcode. -/
theorem nibble_cases (f : BitVec 4) :
    f = 0x0#4 ∨ f = 0x1#4 ∨ f = 0x2#4 ∨ f = 0x3#4 ∨ f = 0x4#4 ∨ f = 0x5#4 ∨ f = 0x6#4 ∨ f = 0x7#4 ∨
    f = 0x8#4 ∨ f = 0x9#4 ∨ f = 0xA#4 ∨ f = 0xB#4 ∨ f = 0xC#4 ∨ f = 0xD#4 ∨ f = 0xE#4 ∨ f = 0xF#4 := by
  have h := f.isLt
  simp only [← BitVec.toNat_inj, BitVec.toNat_ofNat]
  omega

theorem fieldFam_toNat (op : Word) : (fieldFam op).toNat = op.toNat / 0x1000 := by
  have := op.isLt
  simp only [fieldFam, BitVec.extractLsb'_toNat, Nat.shiftRight_eq_div_pow]
  omega

theorem fieldN_toNat (op : Word) : (fieldN op).toNat = op.toNat % 0x10 := by
  simp [fieldN, BitVec.extractLsb'_toNat]

theorem fieldNN_toNat (op : Word) : (fieldNN op).toNat = op.toNat % 0x100 := by
  simp [fieldNN, BitVec.extractLsb'_toNat]

end Sys2Proof
end

