-- ==== Sys2Proof/Laws/Display.lean ====
section
/-! SUPPORT. The laws of the display: what a pixel reads as after a clear and after a toggle (44_display.md R150, R152,
R154). -/

namespace Sys2Proof.Machine

@[simp] theorem Display.pixel_clear (r c : Nat) : Display.clear.pixel r c = false := by
  unfold Display.pixel Display.clear; simp

/-- Both axes wrap. -/
theorem Display.pixel_mod (d : Display) (r c : Nat) : d.pixel (r % 32) (c % 64) = d.pixel r c := by
  unfold Display.pixel; simp

/-- A toggle flips the addressed pixel and no other. -/
theorem Display.pixel_toggle (d : Display) (r c r' c' : Nat) :
    (d.toggle r c).pixel r' c' = (d.pixel r' c' ^^ (decide (r % 32 = r' % 32) && decide (c % 64 = c' % 64))) := by
  have hc : c % 64 < 64 := Nat.mod_lt _ (by decide)
  have hc' : c' % 64 < 64 := Nat.mod_lt _ (by decide)
  unfold Display.pixel Display.toggle
  rw [Vector.getElem_set]
  by_cases hr : r % 32 = r' % 32
  · have hbit : (1#64 <<< (c % 64)).getLsbD (c' % 64) = decide (c % 64 = c' % 64) := by
      rw [BitVec.getLsbD_shiftLeft]
      by_cases he : c % 64 = c' % 64
      · simp [he, hc']
      · by_cases hlt : c' % 64 < c % 64
        · simp [hlt, he]
        · have : c' % 64 - c % 64 ≠ 0 := by omega
          simp [he, this, BitVec.getLsbD_one]
    simp only [hr, if_true, BitVec.getLsbD_xor, hbit, decide_true, Bool.true_and]
  · simp [hr]

theorem drawBit_false (r c : Nat) (acc : Display × Bool) : drawBit false r c acc = acc := rfl

theorem drawBit_true (r c : Nat) (acc : Display × Bool) :
    drawBit true r c acc = (acc.1.toggle r c, acc.2 || acc.1.pixel r c) := rfl

/-- A drawn row is eight drawn bits, leftmost (bit 7) first (R151). -/
theorem drawRow_eq (b : Byte) (r ax : Nat) (acc : Display × Bool) :
    drawRow b r ax acc =
      drawBit (b.getLsbD 0) r (ax + 7) (drawBit (b.getLsbD 1) r (ax + 6) (drawBit (b.getLsbD 2) r (ax + 5)
      (drawBit (b.getLsbD 3) r (ax + 4) (drawBit (b.getLsbD 4) r (ax + 3) (drawBit (b.getLsbD 5) r (ax + 2)
      (drawBit (b.getLsbD 6) r (ax + 1) (drawBit (b.getLsbD 7) r ax acc))))))) := rfl

/-- No row: nothing drawn and no hit. -/
@[simp] theorem drawSprite_zero (m : Memory) (base ax ay : Nat) (d : Display) :
    drawSprite m base ax ay 0 d = (d, false) := rfl

/-- One more row: the sprite of the rows before it, then that row unless it lies outside memory (R155). -/
theorem drawSprite_succ (m : Memory) (base ax ay n : Nat) (d : Display) :
    drawSprite m base ax ay (n + 1) d =
      if InBounds (base + n) 1 then
        drawRow (m.read (base + n)) (ay + n) ax (drawSprite m base ax ay n d)
      else drawSprite m base ax ay n d := by
  unfold drawSprite
  rw [List.range_succ, List.foldl_append]
  rfl

end Sys2Proof.Machine
end

