-- ==== Sys2Proof/Laws/Memory.lean ====
section
/-! SUPPORT. The laws of memory: every operation keeps the canonical form, a read after a write gives the byte written, and
a write leaves every other address alone (20_memory.md R47, R48). -/

namespace Sys2Proof.Machine

@[simp] theorem Memory.read_nil (a : Nat) : Memory.read [] a = resetByte a := rfl

theorem Memory.read_cons (c : Nat) (b : Byte) (m : Memory) (a : Nat) :
    Memory.read ((c, b) :: m) a = if c = a then b else m.read a := rfl

/-- Below every listed address a read gives the reset byte. -/
theorem Memory.read_of_lt {m : Memory} {a : Nat} (h : ∀ c ∈ m, a < c.1) : m.read a = resetByte a := by
  induction m with
  | nil => rfl
  | cons c m ih =>
    have hc : a < c.1 := h c (by simp)
    rw [show (c :: m) = ((c.1, c.2) :: m) from rfl, Memory.read_cons, if_neg (by omega)]
    exact ih fun d hd => h d (by simp [hd])

theorem Memory.read_put {m : Memory} {a : Nat} (b : Byte) (h : ∀ c ∈ m, a < c.1) (x : Nat) :
    (Memory.put a b m).read x = if x = a then b else m.read x := by
  unfold Memory.put
  by_cases hb : b = resetByte a
  · rw [if_pos hb]
    by_cases hx : x = a
    · rw [if_pos hx, hx, Memory.read_of_lt h, hb]
    · rw [if_neg hx]
  · rw [if_neg hb, Memory.read_cons]
    simp only [eq_comm]

/-- Reading after an insertion into a canonical memory. -/
theorem Memory.read_insert {m : Memory} (hm : m.Pairwise (fun c d => c.1 < d.1)) (a : Nat) (b : Byte) (x : Nat) :
    (Memory.insert a b m).read x = if x = a then b else m.read x := by
  induction m with
  | nil => exact Memory.read_put b (by simp) x
  | cons c m ih =>
    obtain ⟨c, d⟩ := c
    obtain ⟨hlt, hm⟩ := List.pairwise_cons.mp hm
    unfold Memory.insert
    split
    · rename_i hac
      apply Memory.read_put b
      intro e he
      rcases List.mem_cons.mp he with rfl | he
      · exact hac
      · exact Nat.lt_trans hac (hlt e he)
    · split
      · rename_i hac
        subst hac
        rw [Memory.read_put b (fun e he => hlt e he), Memory.read_cons]
        by_cases hx : x = a
        · simp [hx]
        · simp [hx, Ne.symm hx]
      · rename_i hac
        rw [Memory.read_cons, Memory.read_cons, ih hm]
        by_cases hx : x = a
        · subst hx; simp [Ne.symm hac]
        · simp [hx]

theorem Memory.read_write {m : Memory} (hm : m.wf) {a : Nat} (ha : a < Config.memSize) (b : Byte) (x : Nat) :
    (m.write a b).read x = if x = a then b else m.read x := by
  unfold Memory.write
  rw [if_pos ha]
  exact Memory.read_insert hm.1 a b x

/-- Every cell of an insertion is the new one or an old one. -/
theorem Memory.mem_insert {m : Memory} {a : Nat} {b : Byte} {e : Host.Cell} (h : e ∈ Memory.insert a b m) :
    (e = (a, b) ∧ b ≠ resetByte a) ∨ e ∈ m := by
  have hput : ∀ m' : Memory, e ∈ Memory.put a b m' → (e = (a, b) ∧ b ≠ resetByte a) ∨ e ∈ m' := by
    intro m' h
    unfold Memory.put at h
    split at h
    · exact .inr h
    · rename_i hb
      rcases List.mem_cons.mp h with rfl | h
      · exact .inl ⟨rfl, hb⟩
      · exact .inr h
  induction m with
  | nil => exact hput [] h
  | cons c m ih =>
    obtain ⟨c, d⟩ := c
    unfold Memory.insert at h
    split at h
    · exact hput _ h
    · split at h
      · rcases hput _ h with h | h
        · exact .inl h
        · exact .inr (List.mem_cons_of_mem _ h)
      · rcases List.mem_cons.mp h with rfl | h
        · exact .inr (List.mem_cons_self ..)
        · rcases ih h with h | h
          · exact .inl h
          · exact .inr (List.mem_cons_of_mem _ h)

theorem Memory.pairwise_insert {m : Memory} (hm : m.Pairwise (fun c d => c.1 < d.1)) (a : Nat) (b : Byte) :
    (Memory.insert a b m).Pairwise (fun c d => c.1 < d.1) := by
  have hput : ∀ m' : Memory, m'.Pairwise (fun c d => c.1 < d.1) → (∀ e ∈ m', a < e.1) →
      (Memory.put a b m').Pairwise (fun c d => c.1 < d.1) := by
    intro m' hm' hlt
    unfold Memory.put
    split
    · exact hm'
    · exact List.pairwise_cons.mpr ⟨hlt, hm'⟩
  induction m with
  | nil => exact hput [] List.Pairwise.nil (by simp)
  | cons c m ih =>
    obtain ⟨c, d⟩ := c
    obtain ⟨hlt, hm'⟩ := List.pairwise_cons.mp hm
    unfold Memory.insert
    split
    · rename_i hac
      refine hput _ hm fun e he => ?_
      rcases List.mem_cons.mp he with rfl | he
      · exact hac
      · exact Nat.lt_trans hac (hlt e he)
    · split
      · rename_i hac
        subst hac
        exact hput _ hm' hlt
      · refine List.pairwise_cons.mpr ⟨fun e he => ?_, ih hm'⟩
        rcases Memory.mem_insert he with ⟨rfl, -⟩ | he
        · show c < a; omega
        · exact hlt e he

/-- A write keeps the canonical form. -/
theorem Memory.write_wf {m : Memory} (hm : m.wf) (a : Nat) (b : Byte) : (m.write a b).wf := by
  unfold Memory.write
  split
  · rename_i ha
    refine ⟨Memory.pairwise_insert hm.1 a b, fun e he => ?_⟩
    rcases Memory.mem_insert he with ⟨rfl, hb⟩ | he
    · exact ⟨ha, hb⟩
    · exact hm.2 e he
  · exact hm

/-- A list of writes keeps the canonical form. -/
theorem Memory.writeList_wf {m : Memory} (hm : m.wf) (a : Nat) (bs : List Byte) : (m.writeList a bs).wf := by
  induction bs generalizing m a with
  | nil => exact hm
  | cons b bs ih => exact ih (Memory.write_wf hm a b) (a + 1)

/-- Any writes over the reset contents give a canonical memory: the memory of a state after an error is one. -/
theorem Memory.foldl_write_wf (cells : List Host.Cell) {m : Memory} (hm : m.wf) :
    (cells.foldl (fun m c => Memory.write m c.1 c.2) m).wf := by
  induction cells generalizing m with
  | nil => exact hm
  | cons c cells ih => exact ih (Memory.write_wf hm c.1 c.2)

theorem Memory.nil_wf : Memory.wf [] := ⟨List.Pairwise.nil, by simp⟩

/-- A read after a list of writes inside memory: the written byte in the range, the old byte outside. -/
theorem Memory.read_writeList {m : Memory} (hm : m.wf) (a : Nat) (bs : List Byte)
    (h : a + bs.length ≤ Config.memSize) (x : Nat) :
    (m.writeList a bs).read x = if a ≤ x ∧ x < a + bs.length then bs.getD (x - a) 0 else m.read x := by
  induction bs generalizing m a with
  | nil =>
    rw [if_neg (by simp only [List.length_nil]; omega)]
    rfl
  | cons b bs ih =>
    simp only [List.length_cons] at h ⊢
    have ha : a < Config.memSize := by simp only [Config.memSize] at h ⊢; omega
    show ((m.write a b).writeList (a + 1) bs).read x = _
    rw [ih (Memory.write_wf hm a b) (a + 1) (by omega), Memory.read_write hm ha]
    by_cases hx : x = a
    · subst hx
      rw [if_neg (by omega), if_pos rfl, if_pos (by omega)]
      simp
    · rw [if_neg hx]
      by_cases hin : a + 1 ≤ x ∧ x < a + 1 + bs.length
      · rw [if_pos hin, if_pos (by omega), show x - a = (x - (a + 1)) + 1 by omega]
        simp
      · rw [if_neg hin, if_neg (by omega)]

/-- Setting one byte changes no other, whatever the form of the list. -/
theorem Memory.read_insert_of_ne (m : Memory) {a x : Nat} (b : Byte) (h : x ≠ a) : (Memory.insert a b m).read x = m.read x := by
  have hput (m' : Memory) : (Memory.put a b m').read x = m'.read x := by
    unfold Memory.put
    split
    · rfl
    · rw [Memory.read_cons, if_neg (Ne.symm h)]
  induction m with
  | nil => exact hput []
  | cons c m ih =>
    unfold Memory.insert
    split
    · exact hput _
    · split
      · rename_i hc
        rw [hput, Memory.read_cons, if_neg (hc ▸ Ne.symm h)]
      · rw [Memory.read_cons, Memory.read_cons, ih]

theorem Memory.read_write_of_ne (m : Memory) {a x : Nat} (b : Byte) (h : x ≠ a) : (m.write a b).read x = m.read x := by
  unfold Memory.write
  split
  · exact Memory.read_insert_of_ne m b h
  · rfl

/-- A list of writes changes no byte outside its range, whatever the form of the list and wherever the range lies. -/
theorem Memory.read_writeList_of_outside (m : Memory) {a x : Nat} (bs : List Byte) (h : ¬ (a ≤ x ∧ x < a + bs.length)) :
    (m.writeList a bs).read x = m.read x := by
  induction bs generalizing m a with
  | nil => rfl
  | cons b bs ih =>
    rw [List.length_cons] at h
    rw [Memory.writeList, ih _ (by omega), Memory.read_write_of_ne m b (by omega)]

@[simp] theorem Memory.readList_length (m : Memory) (a n : Nat) : (m.readList a n).length = n := by
  unfold Memory.readList; simp

theorem Memory.readList_getD (m : Memory) (a n k : Nat) (h : k < n) : (m.readList a n).getD k 0 = m.read (a + k) := by
  unfold Memory.readList; simp [List.getD, h]

end Sys2Proof.Machine
end

