-- ==== Sys2Proof/Laws/State.lean ====
section
/-! SUPPORT. One lemma per field per named update of the state, each true by unfolding, so that no later proof unfolds a
record update. -/

namespace Sys2Proof.Machine


/-! ### `State.setReg` -/

@[simp] theorem State.setReg_v (s : State) (x : RegNo) (b : Byte) : (s.setReg x b).v = s.v.set x.toNat b x.isLt := rfl
@[simp] theorem State.setReg_index (s : State) (x : RegNo) (b : Byte) : (s.setReg x b).index = s.index := rfl
@[simp] theorem State.setReg_pc (s : State) (x : RegNo) (b : Byte) : (s.setReg x b).pc = s.pc := rfl
@[simp] theorem State.setReg_dt (s : State) (x : RegNo) (b : Byte) : (s.setReg x b).dt = s.dt := rfl
@[simp] theorem State.setReg_st (s : State) (x : RegNo) (b : Byte) : (s.setReg x b).st = s.st := rfl
@[simp] theorem State.setReg_sp (s : State) (x : RegNo) (b : Byte) : (s.setReg x b).sp = s.sp := rfl
@[simp] theorem State.setReg_stack (s : State) (x : RegNo) (b : Byte) : (s.setReg x b).stack = s.stack := rfl
@[simp] theorem State.setReg_mem (s : State) (x : RegNo) (b : Byte) : (s.setReg x b).mem = s.mem := rfl
@[simp] theorem State.setReg_disp (s : State) (x : RegNo) (b : Byte) : (s.setReg x b).disp = s.disp := rfl
@[simp] theorem State.setReg_key (s : State) (x : RegNo) (b : Byte) : (s.setReg x b).key = s.key := rfl
@[simp] theorem State.setReg_halt (s : State) (x : RegNo) (b : Byte) : (s.setReg x b).halt = s.halt := rfl
@[simp] theorem State.setReg_err (s : State) (x : RegNo) (b : Byte) : (s.setReg x b).err = s.err := rfl
@[simp] theorem State.setReg_errOpcode (s : State) (x : RegNo) (b : Byte) : (s.setReg x b).errOpcode = s.errOpcode := rfl
@[simp] theorem State.setReg_rndIn (s : State) (x : RegNo) (b : Byte) : (s.setReg x b).rndIn = s.rndIn := rfl
@[simp] theorem State.setReg_freeCount (s : State) (x : RegNo) (b : Byte) : (s.setReg x b).freeCount = s.freeCount := rfl

/-! ### `State.afterRnd` -/

@[simp] theorem State.afterRnd_v (s : State) : (s.afterRnd).v = s.v := rfl
@[simp] theorem State.afterRnd_index (s : State) : (s.afterRnd).index = s.index := rfl
@[simp] theorem State.afterRnd_pc (s : State) : (s.afterRnd).pc = s.pc := rfl
@[simp] theorem State.afterRnd_dt (s : State) : (s.afterRnd).dt = s.dt := rfl
@[simp] theorem State.afterRnd_st (s : State) : (s.afterRnd).st = s.st := rfl
@[simp] theorem State.afterRnd_sp (s : State) : (s.afterRnd).sp = s.sp := rfl
@[simp] theorem State.afterRnd_stack (s : State) : (s.afterRnd).stack = s.stack := rfl
@[simp] theorem State.afterRnd_mem (s : State) : (s.afterRnd).mem = s.mem := rfl
@[simp] theorem State.afterRnd_disp (s : State) : (s.afterRnd).disp = s.disp := rfl
@[simp] theorem State.afterRnd_key (s : State) : (s.afterRnd).key = s.key := rfl
@[simp] theorem State.afterRnd_halt (s : State) : (s.afterRnd).halt = s.halt := rfl
@[simp] theorem State.afterRnd_err (s : State) : (s.afterRnd).err = s.err := rfl
@[simp] theorem State.afterRnd_errOpcode (s : State) : (s.afterRnd).errOpcode = s.errOpcode := rfl
@[simp] theorem State.afterRnd_rndIn (s : State) : (s.afterRnd).rndIn = s.rndIn.tail := rfl
@[simp] theorem State.afterRnd_freeCount (s : State) : (s.afterRnd).freeCount = s.freeCount + 1 := rfl

/-! ### `advancePc` -/

@[simp] theorem advancePc_v (s : State) : (advancePc s).v = s.v := rfl
@[simp] theorem advancePc_index (s : State) : (advancePc s).index = s.index := rfl
@[simp] theorem advancePc_pc (s : State) : (advancePc s).pc = s.pc + 2 := rfl
@[simp] theorem advancePc_dt (s : State) : (advancePc s).dt = s.dt := rfl
@[simp] theorem advancePc_st (s : State) : (advancePc s).st = s.st := rfl
@[simp] theorem advancePc_sp (s : State) : (advancePc s).sp = s.sp := rfl
@[simp] theorem advancePc_stack (s : State) : (advancePc s).stack = s.stack := rfl
@[simp] theorem advancePc_mem (s : State) : (advancePc s).mem = s.mem := rfl
@[simp] theorem advancePc_disp (s : State) : (advancePc s).disp = s.disp := rfl
@[simp] theorem advancePc_key (s : State) : (advancePc s).key = s.key := rfl
@[simp] theorem advancePc_halt (s : State) : (advancePc s).halt = s.halt := rfl
@[simp] theorem advancePc_err (s : State) : (advancePc s).err = s.err := rfl
@[simp] theorem advancePc_errOpcode (s : State) : (advancePc s).errOpcode = s.errOpcode := rfl
@[simp] theorem advancePc_rndIn (s : State) : (advancePc s).rndIn = s.rndIn := rfl
@[simp] theorem advancePc_freeCount (s : State) : (advancePc s).freeCount = s.freeCount := rfl

/-! ### `timerTick` -/

@[simp] theorem timerTick_v (s : State) : (timerTick s).v = s.v := rfl
@[simp] theorem timerTick_index (s : State) : (timerTick s).index = s.index := rfl
@[simp] theorem timerTick_pc (s : State) : (timerTick s).pc = s.pc := rfl
@[simp] theorem timerTick_dt (s : State) : (timerTick s).dt = tickTimer s.dt := rfl
@[simp] theorem timerTick_st (s : State) : (timerTick s).st = tickTimer s.st := rfl
@[simp] theorem timerTick_sp (s : State) : (timerTick s).sp = s.sp := rfl
@[simp] theorem timerTick_stack (s : State) : (timerTick s).stack = s.stack := rfl
@[simp] theorem timerTick_mem (s : State) : (timerTick s).mem = s.mem := rfl
@[simp] theorem timerTick_disp (s : State) : (timerTick s).disp = s.disp := rfl
@[simp] theorem timerTick_key (s : State) : (timerTick s).key = s.key := rfl
@[simp] theorem timerTick_halt (s : State) : (timerTick s).halt = s.halt := rfl
@[simp] theorem timerTick_err (s : State) : (timerTick s).err = s.err := rfl
@[simp] theorem timerTick_errOpcode (s : State) : (timerTick s).errOpcode = s.errOpcode := rfl
@[simp] theorem timerTick_rndIn (s : State) : (timerTick s).rndIn = s.rndIn := rfl
@[simp] theorem timerTick_freeCount (s : State) : (timerTick s).freeCount = s.freeCount := rfl

/-! ### `State.putOpcode` -/

@[simp] theorem State.putOpcode_v (s : State) (op : Word) : (s.putOpcode op).v = s.v := rfl
@[simp] theorem State.putOpcode_index (s : State) (op : Word) : (s.putOpcode op).index = s.index := rfl
@[simp] theorem State.putOpcode_pc (s : State) (op : Word) : (s.putOpcode op).pc = s.pc := rfl
@[simp] theorem State.putOpcode_dt (s : State) (op : Word) : (s.putOpcode op).dt = s.dt := rfl
@[simp] theorem State.putOpcode_st (s : State) (op : Word) : (s.putOpcode op).st = s.st := rfl
@[simp] theorem State.putOpcode_sp (s : State) (op : Word) : (s.putOpcode op).sp = s.sp := rfl
@[simp] theorem State.putOpcode_stack (s : State) (op : Word) : (s.putOpcode op).stack = s.stack := rfl
@[simp] theorem State.putOpcode_mem (s : State) (op : Word) : (s.putOpcode op).mem = (s.mem.write s.pc.toNat (opcodeHi op)).write (s.pc.toNat + 1) (opcodeLo op) := rfl
@[simp] theorem State.putOpcode_disp (s : State) (op : Word) : (s.putOpcode op).disp = s.disp := rfl
@[simp] theorem State.putOpcode_key (s : State) (op : Word) : (s.putOpcode op).key = s.key := rfl
@[simp] theorem State.putOpcode_halt (s : State) (op : Word) : (s.putOpcode op).halt = s.halt := rfl
@[simp] theorem State.putOpcode_err (s : State) (op : Word) : (s.putOpcode op).err = s.err := rfl
@[simp] theorem State.putOpcode_errOpcode (s : State) (op : Word) : (s.putOpcode op).errOpcode = s.errOpcode := rfl
@[simp] theorem State.putOpcode_rndIn (s : State) (op : Word) : (s.putOpcode op).rndIn = s.rndIn := rfl
@[simp] theorem State.putOpcode_freeCount (s : State) (op : Word) : (s.putOpcode op).freeCount = s.freeCount := rfl

/-! ### `raiseError` -/

@[simp] theorem raiseError_key (e : ErrorKind) (s : State) : (raiseError e s).key = s.key := rfl
@[simp] theorem raiseError_halt (e : ErrorKind) (s : State) : (raiseError e s).halt = true := rfl
@[simp] theorem raiseError_err (e : ErrorKind) (s : State) : (raiseError e s).err = e := rfl
@[simp] theorem raiseError_rndIn (e : ErrorKind) (s : State) : (raiseError e s).rndIn = s.rndIn := rfl
@[simp] theorem raiseError_freeCount (e : ErrorKind) (s : State) : (raiseError e s).freeCount = s.freeCount + 1 := rfl

/-! ### `raiseUnknownOpcode` -/

@[simp] theorem raiseUnknownOpcode_key (op : Word) (s : State) : (raiseUnknownOpcode op s).key = s.key := rfl
@[simp] theorem raiseUnknownOpcode_halt (op : Word) (s : State) : (raiseUnknownOpcode op s).halt = true := rfl
@[simp] theorem raiseUnknownOpcode_err (op : Word) (s : State) : (raiseUnknownOpcode op s).err = .unknownOpcode := rfl
@[simp] theorem raiseUnknownOpcode_errOpcode (op : Word) (s : State) : (raiseUnknownOpcode op s).errOpcode = op := rfl
@[simp] theorem raiseUnknownOpcode_rndIn (op : Word) (s : State) : (raiseUnknownOpcode op s).rndIn = s.rndIn := rfl
@[simp] theorem raiseUnknownOpcode_freeCount (op : Word) (s : State) : (raiseUnknownOpcode op s).freeCount = s.freeCount + 1 := rfl

/-! ### Register reads through the updates -/

theorem State.reg_congr {s t : State} (h : t.v = s.v) (r : RegNo) : t.reg r = s.reg r := by
  unfold State.reg; simp [h]

@[simp] theorem State.reg_setReg (s : State) (x r : RegNo) (b : Byte) :
    (s.setReg x b).reg r = if x = r then b else s.reg r := by
  unfold State.reg
  simp only [State.setReg_v, Vector.getElem_set, BitVec.toNat_inj]

@[simp] theorem State.afterRnd_reg (s : State) (r : RegNo) : s.afterRnd.reg r = s.reg r := rfl
@[simp] theorem advancePc_reg (s : State) (r : RegNo) : (advancePc s).reg r = s.reg r := rfl
@[simp] theorem timerTick_reg (s : State) (r : RegNo) : (timerTick s).reg r = s.reg r := rfl
@[simp] theorem State.putOpcode_reg (s : State) (op : Word) (r : RegNo) : (s.putOpcode op).reg r = s.reg r := rfl

/-- The reset state's registers all hold 0 (10_state.md R26). -/
@[simp] theorem State.reset_reg (r : RegNo) : State.reset.reg r = 0 := by
  unfold State.reg State.reset; simp

/-- The two writes of a flag-writing instruction: VF ends as the flag, `Vx` (unless it is VF) as the result. -/
theorem State.setWithFlag_reg (s : State) (x r : RegNo) (result flag : Byte) :
    (s.setWithFlag x result flag).reg r =
      if r = flagReg then flag else if r = x then result else s.reg r := by
  unfold State.setWithFlag
  simp only [State.reg_setReg, eq_comm]

end Sys2Proof.Machine
end

