-- ==== Sys2Proof/Laws/Ops.lean ====
section
/-! SUPPORT. One lemma per shared operation saying everything it can do: the register lists of LD [I],Vx and LD Vx,[I], the
call stack, the checked transfers through `I`, the keys, the digits, the flags, the timers. -/

namespace Sys2Proof.Machine

/-! ### Register lists -/

@[simp] theorem State.regsUpTo_length (s : State) (x : RegNo) : (s.regsUpTo x).length = x.toNat + 1 := by
  unfold State.regsUpTo; simp

theorem State.regsUpTo_getD (s : State) (x : RegNo) (k : Nat) (h : k ≤ x.toNat) :
    (s.regsUpTo x).getD k 0 = s.reg (BitVec.ofNat 4 k) := by
  unfold State.regsUpTo
  simp [List.getD, Nat.lt_succ_of_le h]

/-- Consecutive register writes change registers and nothing else. -/
theorem State.setRegsFrom_frame (s : State) (k : Nat) (bs : List Byte) :
    s.setRegsFrom k bs = { s with v := (s.setRegsFrom k bs).v } := by
  induction bs generalizing s k with
  | nil => rfl
  | cons b bs ih =>
    show (s.setReg _ b).setRegsFrom (k + 1) bs = { s with v := ((s.setReg _ b).setRegsFrom (k + 1) bs).v }
    rw [ih]
    rfl

/-- What each register holds after consecutive writes that end at VF or below. -/
theorem State.setRegsFrom_reg (s : State) (k : Nat) (bs : List Byte) (h : k + bs.length ≤ 16) (r : RegNo) :
    (s.setRegsFrom k bs).reg r =
      if k ≤ r.toNat ∧ r.toNat < k + bs.length then bs.getD (r.toNat - k) 0 else s.reg r := by
  induction bs generalizing s k with
  | nil => rw [if_neg (by simp only [List.length_nil]; omega)]; rfl
  | cons b bs ih =>
    simp only [List.length_cons] at h ⊢
    show ((s.setReg (BitVec.ofNat 4 k) b).setRegsFrom (k + 1) bs).reg r = _
    rw [ih _ _ (by omega), State.reg_setReg]
    by_cases hr : r.toNat = k
    · have hk : BitVec.ofNat 4 k = r := by rw [← hr]; simp
      rw [if_neg (by omega), if_pos hk, if_pos (by omega), hr]
      simp
    · have hk : BitVec.ofNat 4 k ≠ r := by
        rintro rfl
        apply hr
        simp only [BitVec.toNat_ofNat]
        omega
      rw [if_neg hk]
      by_cases hin : k + 1 ≤ r.toNat ∧ r.toNat < k + 1 + bs.length
      · rw [if_pos hin, if_pos (by omega), show r.toNat - k = (r.toNat - (k + 1)) + 1 by omega]
        simp
      · rw [if_neg hin, if_neg (by omega)]

/-! ### The call stack -/

theorem pushThen_of_lt {s : State} (h : s.sp.val < 16) (w : Word) (k : State → State) :
    pushThen w k s = k { s with stack := s.stack.set s.sp.val w h, sp := ⟨s.sp.val + 1, by omega⟩ } := by
  unfold pushThen; rw [dif_pos h]

theorem pushThen_of_full {s : State} (h : s.sp.val = 16) (w : Word) (k : State → State) :
    pushThen w k s = raiseError .stackOverflow s := by
  unfold pushThen; rw [dif_neg (by omega)]

theorem popThen_of_empty {s : State} (h : s.sp.val = 0) (k : Word → State → State) :
    popThen k s = raiseError .stackUnderflow s := by
  unfold popThen; rw [dif_pos h]

theorem popThen_of_ne {s : State} (h : s.sp.val ≠ 0) (k : Word → State → State) :
    popThen k s = k (s.stack[s.sp.val - 1]'(by have := s.sp.isLt; omega))
      { s with sp := ⟨s.sp.val - 1, by have := s.sp.isLt; omega⟩ } := by
  unfold popThen; rw [dif_neg h]

/-! ### Raising an error -/

/-- The memory of a state after an error is canonical, whatever its free bytes are. -/
theorem raiseError_mem_wf (e : ErrorKind) (s : State) : (raiseError e s).mem.wf :=
  Memory.foldl_write_wf _ Memory.nil_wf

theorem raiseUnknownOpcode_mem_wf (op : Word) (s : State) : (raiseUnknownOpcode op s).mem.wf :=
  raiseError_mem_wf .unknownOpcode s

/-! ### Checked transfers -/

theorem storeAtIndex_of_inBounds {s : State} {bs : List Byte} (h : InBounds s.index.toNat bs.length) :
    storeAtIndex bs s = { s with mem := s.mem.writeList s.index.toNat bs } := by
  unfold storeAtIndex; rw [if_pos h]

theorem storeAtIndex_of_outside {s : State} {bs : List Byte} (h : ¬ InBounds s.index.toNat bs.length) :
    storeAtIndex bs s = raiseError .memoryOutOfBounds s := by
  unfold storeAtIndex; rw [if_neg h]

theorem loadAtIndex_of_inBounds {s : State} {n : Nat} (h : InBounds s.index.toNat n) :
    loadAtIndex n s = s.setRegsFrom 0 (s.mem.readList s.index.toNat n) := by
  unfold loadAtIndex; rw [if_pos h]

theorem loadAtIndex_of_outside {s : State} {n : Nat} (h : ¬ InBounds s.index.toNat n) :
    loadAtIndex n s = raiseError .memoryOutOfBounds s := by
  unfold loadAtIndex; rw [if_neg h]

/-! ### Skips -/

@[simp] theorem skipIf_true (s : State) : skipIf true s = { s with pc := s.pc + 2 } := rfl
@[simp] theorem skipIf_false (s : State) : skipIf false s = s := rfl

/-- A skip changes the PC and nothing else. -/
theorem skipIf_eq (c : Bool) (s : State) : skipIf c s = { s with pc := if c then s.pc + 2 else s.pc } := by
  cases c <;> rfl

/-! ### Keys -/

theorem mem_pressedKeys {key : BitVec 16} {k : Nat} : k ∈ pressedKeys key ↔ k < 16 ∧ key.getLsbD k = true := by
  unfold pressedKeys; simp

theorem pressedKeys_ne_nil {key : BitVec 16} (h : key ≠ 0) : pressedKeys key ≠ [] := by
  intro hn
  apply h
  apply BitVec.eq_of_getLsbD_eq
  intro k hk
  cases hb : key.getLsbD k with
  | false => simp
  | true =>
    have : k ∈ pressedKeys key := mem_pressedKeys.mpr ⟨hk, hb⟩
    rw [hn] at this
    cases this

/-- With some key down the reported index is that of a pressed key, whatever the open choice is. -/
theorem keyPick_spec {key : BitVec 16} (h : key ≠ 0) : ∃ k ∈ pressedKeys key, keyPick key = BitVec.ofNat 8 k := by
  have hne := pressedKeys_ne_nil h
  unfold keyPick
  split
  · rename_i hk; exact absurd hk hne
  · rename_i k hk; exact ⟨k, by simp [hk], rfl⟩
  · rename_i k l ks hk
    have hlt : Config.keyChoice key % (ks.length + 2) < (k :: l :: ks).length :=
      Nat.mod_lt _ (Nat.succ_pos (ks.length + 1))
    refine ⟨_, ?_, rfl⟩
    rw [hk, List.getD, List.getElem?_eq_getElem hlt]
    exact List.getElem_mem hlt

/-- With exactly one key down it is that key. -/
theorem keyPick_single {key : BitVec 16} {k : Nat} (h : pressedKeys key = [k]) : keyPick key = BitVec.ofNat 8 k := by
  unfold keyPick; rw [h]

/-! ### Flags and timers -/

theorem flagByte_eq (c : Bool) : flagByte c = if c = true then 0x01#8 else 0x00#8 := rfl

theorem tickTimer_toNat (t : Byte) : (tickTimer t).toNat = t.toNat - 1 := by
  unfold tickTimer
  split
  · rename_i h; simp [h]
  · rename_i h
    have h0 : t.toNat ≠ 0 := fun hz => h (BitVec.eq_of_toNat_eq (by simpa using hz))
    have := t.isLt
    rw [BitVec.toNat_sub]
    simp
    omega

theorem endStep_of_running {t : State} (h : t.halt = false) : endStep t = timerTick t := by
  unfold endStep; simp [h]

theorem endStep_of_halted {t : State} (h : t.halt = true) : endStep t = t := by
  unfold endStep; simp [h]

@[simp] theorem endStep_halt (t : State) : (endStep t).halt = t.halt := by
  unfold endStep; split <;> simp [*]

end Sys2Proof.Machine
end

