-- ==== Sys2Proof/Laws/Exec.lean ====
section
/-! SUPPORT. The instructions whose meaning has more than one case, one equation per case: RET and CALL (41_control_flow.md
R100, R102), the memory transfers (43_index_memory.md R143, R145, R146) and LD Vx,K (45_timers_keys.md R163). -/

namespace Sys2Proof.Machine

theorem exec_ret_of_ne {s : State} (h : s.sp.val ≠ 0) :
    exec .ret s = .next { s with
      pc := s.stack[s.sp.val - 1]'(by have := s.sp.isLt; omega)
      sp := ⟨s.sp.val - 1, by have := s.sp.isLt; omega⟩ } := by
  show execRet s = _
  unfold execRet
  rw [popThen_of_ne h]

theorem exec_ret_of_empty {s : State} (h : s.sp.val = 0) : exec .ret s = .next (raiseError .stackUnderflow s) := by
  show execRet s = _
  unfold execRet
  rw [popThen_of_empty h]

theorem exec_call_of_lt {s : State} (h : s.sp.val < 16) (nnn : BitVec 12) :
    exec (.call nnn) s = .next { s with
      pc := zextAddr nnn, stack := s.stack.set s.sp.val s.pc h, sp := ⟨s.sp.val + 1, by omega⟩ } := by
  show execCall nnn s = _
  unfold execCall
  rw [pushThen_of_lt h]

theorem exec_call_of_full {s : State} (h : s.sp.val = 16) (nnn : BitVec 12) :
    exec (.call nnn) s = .next (raiseError .stackOverflow s) := by
  show execCall nnn s = _
  unfold execCall
  rw [pushThen_of_full h]

theorem exec_ldB_of_inBounds {s : State} (h : s.index.toNat + 3 ≤ 4096) (x : RegNo) :
    exec (.ldB x) s = .next { s with mem := s.mem.writeList s.index.toNat (bcdDigits (s.reg x)) } := by
  show execLdB x s = _
  unfold execLdB
  rw [storeAtIndex_of_inBounds h]

theorem exec_ldB_of_outside {s : State} (h : ¬ s.index.toNat + 3 ≤ 4096) (x : RegNo) :
    exec (.ldB x) s = .next (raiseError .memoryOutOfBounds s) := by
  show execLdB x s = _
  unfold execLdB
  rw [storeAtIndex_of_outside h]

theorem exec_storeRegs_of_inBounds {s : State} {x : RegNo} (h : s.index.toNat + (x.toNat + 1) ≤ 4096) :
    exec (.storeRegs x) s = .next { s with mem := s.mem.writeList s.index.toNat (s.regsUpTo x) } := by
  show execStoreRegs x s = _
  unfold execStoreRegs
  rw [storeAtIndex_of_inBounds (by simpa using h)]

theorem exec_storeRegs_of_outside {s : State} {x : RegNo} (h : ¬ s.index.toNat + (x.toNat + 1) ≤ 4096) :
    exec (.storeRegs x) s = .next (raiseError .memoryOutOfBounds s) := by
  show execStoreRegs x s = _
  unfold execStoreRegs
  rw [storeAtIndex_of_outside (by simpa using h)]

theorem exec_loadRegs_of_inBounds {s : State} {x : RegNo} (h : s.index.toNat + (x.toNat + 1) ≤ 4096) :
    exec (.loadRegs x) s = .next (s.setRegsFrom 0 (s.mem.readList s.index.toNat (x.toNat + 1))) := by
  show execLoadRegs x s = _
  unfold execLoadRegs
  rw [loadAtIndex_of_inBounds h]

theorem exec_loadRegs_of_outside {s : State} {x : RegNo} (h : ¬ s.index.toNat + (x.toNat + 1) ≤ 4096) :
    exec (.loadRegs x) s = .next (raiseError .memoryOutOfBounds s) := by
  show execLoadRegs x s = _
  unfold execLoadRegs
  rw [loadAtIndex_of_outside h]

theorem exec_ldVxK_of_none {s : State} (h : s.key = 0) (x : RegNo) :
    exec (.ldVxK x) s = .next { s with pc := s.pc - 2 } := by
  show execLdVxK x s = _
  unfold execLdVxK
  rw [if_pos h]

theorem exec_ldVxK_of_some {s : State} (h : s.key ≠ 0) (x : RegNo) :
    exec (.ldVxK x) s = .next (s.setReg x (keyPick s.key)) := by
  show execLdVxK x s = _
  unfold execLdVxK
  rw [if_neg h]

/-- The registers LD Vx,[I] leaves (R146). -/
theorem reg_after_load (s : State) (x r : RegNo) :
    (s.setRegsFrom 0 (s.mem.readList s.index.toNat (x.toNat + 1))).reg r =
      if r.toNat ≤ x.toNat then s.mem.read (s.index.toNat + r.toNat) else s.reg r := by
  have hx := x.isLt
  rw [State.setRegsFrom_reg _ _ _ (by simp only [Memory.readList_length]; omega)]
  simp only [Memory.readList_length]
  by_cases hr : r.toNat ≤ x.toNat
  · rw [if_pos (by omega), if_pos hr, Nat.sub_zero, Memory.readList_getD _ _ _ _ (by omega)]
  · rw [if_neg (by omega), if_neg hr]

/-- A next state that is not halted is not the state after an error. -/
theorem not_halted_of_error {e : ErrorKind} {s t : State} (h : (.next (raiseError e s) : Result) = .next t)
    (ht : t.halt = false) : False := by
  cases h
  simp at ht

end Sys2Proof.Machine
end

