-- ==== Sys2Proof/Laws/PerInstr.lean ====
section
/-! SUPPORT. Statements made per instruction: the word of every instruction is none of the illegal words 30_encoding.md R78
lists. The table of R78 is written by quotients and remainders (WellFormed.lean), the encoder by concatenation. -/

namespace Sys2Proof.Laws.LegalWord

/-- The encoded word is legal by R78's table. -/
def Statement (i : Instr) : Prop := legalWord (encode i) = true

theorem familyOf_eq (w : Word) : familyOf w = (fieldFam w).toNat := (fieldFam_toNat w).symm
theorem lowNibbleOf_eq (w : Word) : lowNibbleOf w = (fieldN w).toNat := (fieldN_toNat w).symm
theorem lowByteOf_eq (w : Word) : lowByteOf w = (fieldNN w).toNat := (fieldNN_toNat w).symm

theorem of_nnn (f : BitVec 4) (nnn : BitVec 12) (h : f.toNat ∉ [0x0, 0x5, 0x8, 0x9, 0xE, 0xF]) :
    legalWord (encodeNNN f nnn) = true := by
  simp only [List.mem_cons, List.not_mem_nil, or_false, not_or] at h
  simp [legalWord, familyOf_eq, fieldFam_encodeNNN, h]

theorem of_xnn (f : BitVec 4) (x : RegNo) (nn : Byte) (h : f.toNat ∉ [0x0, 0x5, 0x8, 0x9, 0xE, 0xF]) :
    legalWord (encodeXNN f x nn) = true := by
  simp only [List.mem_cons, List.not_mem_nil, or_false, not_or] at h
  simp [legalWord, familyOf_eq, fieldFam_encodeXNN, h]

theorem of_xyn (f : BitVec 4) (x y : RegNo) (n : BitVec 4) (h : f.toNat ∉ [0x0, 0x5, 0x8, 0x9, 0xE, 0xF]) :
    legalWord (encodeXYN f x y n) = true := by
  simp only [List.mem_cons, List.not_mem_nil, or_false, not_or] at h
  simp [legalWord, familyOf_eq, fieldFam_encodeXYN, h]

theorem of_compare (f : BitVec 4) (x y : RegNo) (h : f = 0x5#4 ∨ f = 0x9#4) :
    legalWord (encodeXYN f x y 0x0#4) = true := by
  rcases h with rfl | rfl <;>
    simp [legalWord, legalCompare, familyOf_eq, lowNibbleOf_eq, fieldFam_encodeXYN, fieldN_encodeXYN]

theorem of_alu (x y : RegNo) (n : BitVec 4) (h : n.toNat ∉ [0x8, 0x9, 0xA, 0xB, 0xC, 0xD, 0xF]) :
    legalWord (encodeXYN 0x8#4 x y n) = true := by
  simp only [List.mem_cons, List.not_mem_nil, or_false, not_or] at h
  simp [legalWord, legalAlu, familyOf_eq, lowNibbleOf_eq, fieldFam_encodeXYN, fieldN_encodeXYN, h]

theorem of_keySkip (x : RegNo) (nn : Byte) (h : nn.toNat = 0x9E ∨ nn.toNat = 0xA1) :
    legalWord (encodeXNN 0xE#4 x nn) = true := by
  rcases h with h | h <;>
    simp [legalWord, legalKeySkip, familyOf_eq, lowByteOf_eq, fieldFam_encodeXNN, fieldNN_encodeXNN, h]

theorem of_misc (x : RegNo) (nn : Byte) (h : nn.toNat ∈ [0x07, 0x0A, 0x15, 0x18, 0x1E, 0x29, 0x33, 0x55, 0x65]) :
    legalWord (encodeXNN 0xF#4 x nn) = true := by
  simp only [List.mem_cons, List.not_mem_nil, or_false] at h
  simp [legalWord, legalMisc, familyOf_eq, lowByteOf_eq, fieldFam_encodeXNN, fieldNN_encodeXNN, h]

theorem cls : Statement .cls := by show legalWord _ = true; decide
theorem ret : Statement .ret := by show legalWord _ = true; decide
theorem jp (nnn : BitVec 12) : Statement (.jp nnn) := of_nnn _ nnn (by decide)
theorem call (nnn : BitVec 12) : Statement (.call nnn) := of_nnn _ nnn (by decide)
theorem seImm (x : RegNo) (nn : Byte) : Statement (.seImm x nn) := of_xnn _ x nn (by decide)
theorem sneImm (x : RegNo) (nn : Byte) : Statement (.sneImm x nn) := of_xnn _ x nn (by decide)
theorem seReg (x y : RegNo) : Statement (.seReg x y) := of_compare _ x y (by decide)
theorem ldImm (x : RegNo) (nn : Byte) : Statement (.ldImm x nn) := of_xnn _ x nn (by decide)
theorem addImm (x : RegNo) (nn : Byte) : Statement (.addImm x nn) := of_xnn _ x nn (by decide)
theorem ldReg (x y : RegNo) : Statement (.ldReg x y) := of_alu x y _ (by decide)
theorem orReg (x y : RegNo) : Statement (.orReg x y) := of_alu x y _ (by decide)
theorem andReg (x y : RegNo) : Statement (.andReg x y) := of_alu x y _ (by decide)
theorem xorReg (x y : RegNo) : Statement (.xorReg x y) := of_alu x y _ (by decide)
theorem addReg (x y : RegNo) : Statement (.addReg x y) := of_alu x y _ (by decide)
theorem sub (x y : RegNo) : Statement (.sub x y) := of_alu x y _ (by decide)
theorem shr (x y : RegNo) : Statement (.shr x y) := of_alu x y _ (by decide)
theorem subn (x y : RegNo) : Statement (.subn x y) := of_alu x y _ (by decide)
theorem shl (x y : RegNo) : Statement (.shl x y) := of_alu x y _ (by decide)
theorem sneReg (x y : RegNo) : Statement (.sneReg x y) := of_compare _ x y (by decide)
theorem ldI (nnn : BitVec 12) : Statement (.ldI nnn) := of_nnn _ nnn (by decide)
theorem jpV0 (nnn : BitVec 12) : Statement (.jpV0 nnn) := of_nnn _ nnn (by decide)
theorem rnd (x : RegNo) (nn : Byte) : Statement (.rnd x nn) := of_xnn _ x nn (by decide)
theorem drw (x y : RegNo) (n : BitVec 4) : Statement (.drw x y n) := of_xyn _ x y n (by decide)
theorem skp (x : RegNo) : Statement (.skp x) := of_keySkip x _ (by decide)
theorem sknp (x : RegNo) : Statement (.sknp x) := of_keySkip x _ (by decide)
theorem ldVxDt (x : RegNo) : Statement (.ldVxDt x) := of_misc x _ (by decide)
theorem ldVxK (x : RegNo) : Statement (.ldVxK x) := of_misc x _ (by decide)
theorem ldDtVx (x : RegNo) : Statement (.ldDtVx x) := of_misc x _ (by decide)
theorem ldStVx (x : RegNo) : Statement (.ldStVx x) := of_misc x _ (by decide)
theorem addI (x : RegNo) : Statement (.addI x) := of_misc x _ (by decide)
theorem ldF (x : RegNo) : Statement (.ldF x) := of_misc x _ (by decide)
theorem ldB (x : RegNo) : Statement (.ldB x) := of_misc x _ (by decide)
theorem storeRegs (x : RegNo) : Statement (.storeRegs x) := of_misc x _ (by decide)
theorem loadRegs (x : RegNo) : Statement (.loadRegs x) := of_misc x _ (by decide)

end Sys2Proof.Laws.LegalWord
end

