-- ==== Sys2Proof/Laws/Step.lean ====
section
/-! SUPPORT. STEP said once: its equation in each case, and the inversion every claim about a step starts from
(40_step_cycle.md R96). -/

namespace Sys2Proof.Machine

theorem step_of_halted {s : State} (h : s.halt = true) : step s = .next s := by
  unfold step; simp [h]

theorem fetch_of_le {s : State} (h : s.pc.toNat + 2 ≤ 4096) :
    fetch s = some (opcodeOfBytes (s.mem.read s.pc.toNat) (s.mem.read (s.pc.toNat + 1))) := by
  unfold fetch; rw [if_pos h]

theorem fetch_of_gt {s : State} (h : ¬ s.pc.toNat + 2 ≤ 4096) : fetch s = none := by
  unfold fetch; rw [if_neg h]

theorem fetch_some {s : State} {op : Word} (h : fetch s = some op) :
    s.pc.toNat + 2 ≤ 4096 ∧ op = opcodeOfBytes (s.mem.read s.pc.toNat) (s.mem.read (s.pc.toNat + 1)) := by
  unfold fetch at h
  split at h
  · rename_i hb; exact ⟨hb, (Option.some.inj h).symm⟩
  · cases h

theorem step_of_fetch_none {s : State} (hs : s.halt = false) (hf : fetch s = none) :
    step s = .next (raiseError .memoryOutOfBounds s) := by
  unfold step; simp [hs, hf, fetchFailed]

theorem step_of_unknown {s : State} {op w : Word} (hs : s.halt = false) (hf : fetch s = some op)
    (hd : decode op = .unknownOpcode w) : step s = .next (raiseUnknownOpcode w s) := by
  unfold step; simp [hs, hf, hd, decodeFailed]

theorem step_of_instr {s : State} {op : Word} {i : Instr} (hs : s.halt = false) (hf : fetch s = some op)
    (hd : decode op = .instr i) : step s = finishStep (exec i (advancePc s)) := by
  unfold step; simp [hs, hf, hd]

theorem finishStep_next {r : Result} {t : State} (h : finishStep r = .next t) : ∃ u, r = .next u ∧ t = endStep u := by
  cases r with
  | next u => exact ⟨u, rfl, by simpa [finishStep] using h.symm⟩
  | fault e => cases e
  | refused e => cases h

/-- Everything a STEP that answers a next state can have done. -/
theorem step_cases {s t : State} (h : step s = .next t) :
    (s.halt = true ∧ t = s) ∨
    (s.halt = false ∧ fetch s = none ∧ t = raiseError .memoryOutOfBounds s) ∨
    (∃ op w, s.halt = false ∧ fetch s = some op ∧ decode op = .unknownOpcode w ∧ t = raiseUnknownOpcode w s) ∨
    (∃ op i u, s.halt = false ∧ fetch s = some op ∧ decode op = .instr i ∧
      exec i (advancePc s) = .next u ∧ t = endStep u) := by
  cases hs : s.halt with
  | true =>
    rw [step_of_halted hs] at h
    exact .inl ⟨rfl, by simpa using h.symm⟩
  | false =>
    cases hf : fetch s with
    | none =>
      rw [step_of_fetch_none hs hf] at h
      exact .inr (.inl ⟨rfl, rfl, by simpa using h.symm⟩)
    | some op =>
      cases hd : decode op with
      | unknownOpcode w =>
        rw [step_of_unknown hs hf hd] at h
        exact .inr (.inr (.inl ⟨op, w, rfl, rfl, hd, by simpa using h.symm⟩))
      | instr i =>
        rw [step_of_instr hs hf hd] at h
        obtain ⟨u, hu, rfl⟩ := finishStep_next h
        exact .inr (.inr (.inr ⟨op, i, u, rfl, rfl, hd, hu, rfl⟩))

end Sys2Proof.Machine
end

