-- ==== Sys2Proof/Tests/Slice0.lean ====
section
/-! SUPPORT. The model's own tests. Expected results come from the worked examples of spec/95_test_vectors.md (cited per
test) or are written out by hand from the encodings of 30_encoding.md. Then one witness per hypothesis of the statements. -/

namespace Sys2Proof.Tests

open Sys2Proof.Machine Sys2Proof.Claims

/-! ### Well-formedness: an ill-formed word for each check, refused (30_encoding.md R78, R79) -/

theorem test_illformed_family0 : legalFamily0 0x01E0#16 = false ∧ legalWord 0x0FFF#16 = false := by decide
theorem test_illformed_compare : legalCompare 0x5121#16 = false ∧ legalWord 0x9121#16 = false := by decide
theorem test_illformed_alu : legalAlu 0x8018#16 = false ∧ legalWord 0x801F#16 = false := by decide
theorem test_illformed_keySkip : legalKeySkip 0xE29F#16 = false ∧ legalWord 0xE29F#16 = false := by decide
theorem test_illformed_misc : legalMisc 0xF034#16 = false ∧ legalWord 0xF034#16 = false := by decide
theorem test_illformed_decoded :
    decode 0x01E0#16 = .unknownOpcode 0x01E0 ∧ decode 0x5121#16 = .unknownOpcode 0x5121 ∧
    decode 0x8018#16 = .unknownOpcode 0x8018 ∧ decode 0xE29F#16 = .unknownOpcode 0xE29F ∧
    decode 0xF034#16 = .unknownOpcode 0xF034 := by decide

/-! ### Decoding: a word for every constructor, written out from R76 with the fields of R71, bit by bit -/

theorem test_decode_cls : decode 0b0000000011100000#16 = .instr (.cls) := by decide
theorem test_decode_ret : decode 0b0000000011101110#16 = .instr (.ret) := by decide
theorem test_decode_jp : decode 0b0001101010111100#16 = .instr (.jp 0xABC) := by decide
theorem test_decode_call : decode 0b0010101010111100#16 = .instr (.call 0xABC) := by decide
theorem test_decode_seImm : decode 0b0011101001000010#16 = .instr (.seImm 0xA 0x42) := by decide
theorem test_decode_sneImm : decode 0b0100101001000010#16 = .instr (.sneImm 0xA 0x42) := by decide
theorem test_decode_seReg : decode 0b0101000100100000#16 = .instr (.seReg 1 2) := by decide
theorem test_decode_ldImm : decode 0b0110001100101010#16 = .instr (.ldImm 3 0x2A) := by decide
theorem test_decode_addImm : decode 0b0111000111111111#16 = .instr (.addImm 1 0xFF) := by decide
theorem test_decode_ldReg : decode 0b1000000100100000#16 = .instr (.ldReg 1 2) := by decide
theorem test_decode_orReg : decode 0b1000000100100001#16 = .instr (.orReg 1 2) := by decide
theorem test_decode_andReg : decode 0b1000000100100010#16 = .instr (.andReg 1 2) := by decide
theorem test_decode_xorReg : decode 0b1000000100100011#16 = .instr (.xorReg 1 2) := by decide
theorem test_decode_addReg : decode 0b1000000100100100#16 = .instr (.addReg 1 2) := by decide
theorem test_decode_sub : decode 0b1000000100100101#16 = .instr (.sub 1 2) := by decide
theorem test_decode_shr : decode 0b1000001000110110#16 = .instr (.shr 2 3) := by decide
theorem test_decode_subn : decode 0b1000000100100111#16 = .instr (.subn 1 2) := by decide
theorem test_decode_shl : decode 0b1000001000111110#16 = .instr (.shl 2 3) := by decide
theorem test_decode_sneReg : decode 0b1001000100100000#16 = .instr (.sneReg 1 2) := by decide
theorem test_decode_ldI : decode 0b1010001100000000#16 = .instr (.ldI 0x300) := by decide
theorem test_decode_jpV0 : decode 0b1011001100000000#16 = .instr (.jpV0 0x300) := by decide
theorem test_decode_rnd : decode 0b1100000000001111#16 = .instr (.rnd 0 0x0F) := by decide
theorem test_decode_drw : decode 0b1101010110100011#16 = .instr (.drw 5 0xA 3) := by decide
theorem test_decode_skp : decode 0b1110001010011110#16 = .instr (.skp 2) := by decide
theorem test_decode_sknp : decode 0b1110001010100001#16 = .instr (.sknp 2) := by decide
theorem test_decode_ldVxDt : decode 0b1111000100000111#16 = .instr (.ldVxDt 1) := by decide
theorem test_decode_ldVxK : decode 0b1111001000001010#16 = .instr (.ldVxK 2) := by decide
theorem test_decode_ldDtVx : decode 0b1111010000010101#16 = .instr (.ldDtVx 4) := by decide
theorem test_decode_ldStVx : decode 0b1111010000011000#16 = .instr (.ldStVx 4) := by decide
theorem test_decode_addI : decode 0b1111001000011110#16 = .instr (.addI 2) := by decide
theorem test_decode_ldF : decode 0b1111001000101001#16 = .instr (.ldF 2) := by decide
theorem test_decode_ldB : decode 0b1111011000110011#16 = .instr (.ldB 6) := by decide
theorem test_decode_storeRegs : decode 0b1111001001010101#16 = .instr (.storeRegs 2) := by decide
theorem test_decode_loadRegs : decode 0b1111101001100101#16 = .instr (.loadRegs 0xA) := by decide

/-- R46, section 2.6 row 1: bytes 12 34 are the opcode 0x1234. -/
theorem test_byte_order : decodeBytes [0x12#8, 0x34#8, 0x00#8] = some (.instr (.jp 0x234), [0x00#8]) := by decide

/-! ### One step -/

/-- The reset state changed by `f`, with the word `w` where the next fetch reads it. -/
def start (w : Nat) (f : State → State) : State := (f State.reset).withFetchWord 16 w

/-- What `o` reads in the state after one step. -/
def after {α : Type} (w : Nat) (f : State → State) (o : State → α) : Option α :=
  match step (start w f) with
  | .next t => some (o t)
  | .fault _ => none
  | .refused _ => none

/-- Two registers set. -/
def withRegs (x : RegNo) (a : Byte) (y : RegNo) (b : Byte) (s : State) : State := (s.setReg x a).setReg y b

/-- Bytes placed in memory. -/
def withBytes (a : Nat) (bs : List Byte) (s : State) : State := { s with mem := s.mem.writeList a bs }

/-- The registers named, then the PC. -/
def regsPc (xs : List RegNo) (s : State) : List Nat × Nat := (xs.map fun x => (s.reg x).toNat, s.pc.toNat)

/-- The status an error leaves. -/
def errorOf (s : State) : Bool × BitVec 3 := (s.halt, s.err.number)

/-- S1 -/
theorem test_ldImm :
    after 0x632A id (regsPc [3, 0]) = some ([0x2A, 0], 0x202) := by decide
/-- 2.2 row 1 -/
theorem test_addImm_wraps_no_flag :
    after 0x7001 (·.setReg 0 0xFF) (regsPc [0, 0xF]) = some ([0, 0], 0x202) := by decide
/-- 2.2 row 2 -/
theorem test_addImm_vf :
    after 0x7F05 (·.setReg 0xF 0xFE) (regsPc [0xF]) = some ([3], 0x202) := by decide
/-- 2.2 row 4 -/
theorem test_ldReg :
    after 0x8010 (·.setReg 1 0x7F) (regsPc [0, 1]) = some ([0x7F, 0x7F], 0x202) := by decide
/-- 2.2 row 5 -/
theorem test_or_keeps_vf :
    after 0x8011 (fun s => (withRegs 0 0xF0 1 0x0F s).setReg 0xF 1) (regsPc [0, 0xF]) = some ([0xFF, 1], 0x202) := by decide
/-- 2.2 row 6 -/
theorem test_and :
    after 0x8012 (withRegs 0 0xF0 1 0x3C) (regsPc [0, 1]) = some ([0x30, 0x3C], 0x202) := by decide
/-- 2.2 row 8 -/
theorem test_xor_self :
    after 0x8113 (·.setReg 1 0xAB) (regsPc [1]) = some ([0], 0x202) := by decide
/-- 2.2 row 7 -/
theorem test_xor :
    after 0x8013 (withRegs 0 0xFF 1 0x0F) (regsPc [0]) = some ([0xF0], 0x202) := by decide
/-- S2 -/
theorem test_add_carries :
    after 0x8014 (withRegs 0 250 1 10) (regsPc [0, 1, 0xF]) = some ([4, 10, 1], 0x202) := by decide
/-- 2.2 row 12 -/
theorem test_add_vf_destination :
    after 0x8F14 (withRegs 0xF 200 1 100) (regsPc [0xF]) = some ([1], 0x202) := by decide
/-- 2.2 row 16 -/
theorem test_sub_borrows :
    after 0x8015 (withRegs 0 3 1 10) (regsPc [0, 0xF]) = some ([0xF9, 0], 0x202) := by decide
/-- 2.2 row 17 -/
theorem test_sub_equal :
    after 0x8015 (fun s => (withRegs 0 7 1 7 s).setReg 0xF 1) (regsPc [0, 0xF]) = some ([0, 0], 0x202) := by decide
/-- 2.2 row 29 -/
theorem test_shr_ignores_vy :
    after 0x8236 (fun s => (withRegs 2 4 3 0xFF s).setReg 0xF 1) (regsPc [2, 3, 0xF]) = some ([2, 0xFF, 0], 0x202) := by decide
/-- 2.2 row 31 -/
theorem test_shr_vf :
    after 0x8F06 (·.setReg 0xF 3) (regsPc [0xF]) = some ([1], 0x202) := by decide
/-- 2.2 row 24 -/
theorem test_subn :
    after 0x8017 (withRegs 0 3 1 10) (regsPc [0, 1, 0xF]) = some ([7, 10, 1], 0x202) := by decide
/-- 2.2 row 25 -/
theorem test_subn_borrows :
    after 0x8017 (withRegs 0 10 1 3) (regsPc [0, 0xF]) = some ([0xF9, 0], 0x202) := by decide
/-- S3 -/
theorem test_shl :
    after 0x800E (·.setReg 0 0x81) (regsPc [0, 0xF]) = some ([2, 1], 0x202) := by decide
/-- 2.2 row 36 -/
theorem test_shl_vf :
    after 0x8F0E (·.setReg 0xF 0x7F) (regsPc [0xF]) = some ([0], 0x202) := by decide
/-- 2.2 row 37 -/
theorem test_rnd :
    after 0xC00F (fun s => { s with rndIn := [0xA7] }) (regsPc [0]) = some ([7], 0x202) := by decide
/-- 2.1 row 1 -/
theorem test_jp :
    after 0x1ABC id (regsPc []) = some ([], 0xABC) := by decide
/-- 2.1 row 20 -/
theorem test_jpV0_not_reduced :
    after 0xBFFF (·.setReg 0 0xFF) (regsPc []) = some ([], 0x10FE) := by decide
/-- 2.1 row 6 -/
theorem test_call :
    after 0x2ABC (fun s => { s with sp := 15 }) (fun t => (t.pc.toNat, t.sp.val, t.stack[15].toNat)) = some (0xABC, 16, 0x202) := by decide
/-- 2.1 row 5 -/
theorem test_call_overflow :
    after 0x2ABC (fun s => { s with sp := 16 }) errorOf = some (true, 2) := by decide
/-- 2.1 row 7 -/
theorem test_ret :
    after 0x00EE (fun s => { s with sp := 1, stack := s.stack.set 0 0x345 }) (fun t => (t.pc.toNat, t.sp.val)) = some (0x345, 0) := by decide
/-- 2.1 row 8 -/
theorem test_ret_underflow :
    after 0x00EE id errorOf = some (true, 3) := by decide
/-- S7 -/
theorem test_seImm :
    after 0x3A42 (·.setReg 0xA 0x42) (regsPc []) = some ([], 0x204) ∧
    after 0x3A42 (·.setReg 0xA 0x43) (regsPc []) = some ([], 0x202) := by decide
/-- 2.1 rows 11 and 12 -/
theorem test_sneImm :
    after 0x4A42 (·.setReg 0xA 0x42) (regsPc []) = some ([], 0x202) ∧
    after 0x4A42 (·.setReg 0xA 0x43) (regsPc []) = some ([], 0x204) := by decide
/-- 2.1 rows 14 and 15 -/
theorem test_seReg :
    after 0x5120 (withRegs 1 7 2 8) (regsPc []) = some ([], 0x202) ∧ after 0x5330 (·.setReg 3 9) (regsPc []) = some ([], 0x204) := by decide
/-- 2.1 rows 17 and 18 -/
theorem test_sneReg :
    after 0x9120 (withRegs 1 7 2 8) (regsPc []) = some ([], 0x204) ∧ after 0x9330 (·.setReg 3 9) (regsPc []) = some ([], 0x202) := by decide
/-- 2.3 row 2 -/
theorem test_ldI :
    after 0xAFFF id (fun t => t.index.toNat) = some 0x0FFF := by decide
/-- 2.3 rows 3 and 4 -/
theorem test_addI :
    after 0xF21E (fun s => { s.setReg 2 5 with index := 0x0FFE }) (fun t => t.index.toNat) = some 0x1003 ∧
    after 0xF01E (fun s => { s.setReg 0 1 with index := 0xFFFF }) (fun t => (t.index.toNat, (t.reg 0xF).toNat)) = some (0, 0) := by decide
/-- 2.3 row 5 -/
theorem test_ldF_no_multiply :
    after 0xF229 (·.setReg 2 0x0A) (fun t => t.index.toNat) = some 0x0A := by decide
/-- 2.3 row 9 -/
theorem test_ldB :
    after 0xF033 (fun s => { s.setReg 0 255 with index := 4093 })
      (fun t => ([4093, 4094, 4095].map fun a => (t.mem.read a).toNat, t.index.toNat)) = some ([2, 5, 5], 4093) := by decide
/-- 2.3 row 11 -/
theorem test_ldB_outside :
    after 0xF033 (fun s => { s with index := 0x1003 }) errorOf = some (true, 5) := by decide
/-- 2.3 row 12 -/
theorem test_storeRegs :
    after 0xF255 (fun s => { (withRegs 0 0x11 1 0x22 (withRegs 2 0x33 3 0x44 s)) with index := 0x400 })
      (fun t => ([0x400, 0x401, 0x402, 0x403].map fun a => (t.mem.read a).toNat, t.index.toNat)) =
    some ([0x11, 0x22, 0x33, 0], 0x400) := by decide
/-- 2.3 row 14 -/
theorem test_storeRegs_outside :
    after 0xF155 (fun s => { s with index := 4095 }) errorOf = some (true, 5) := by decide
/-- 2.3 row 17 -/
theorem test_loadRegs_font :
    after 0xF465 id (regsPc [0, 1, 2, 3, 4, 5]) = some ([0xF0, 0x90, 0x90, 0x90, 0xF0, 0], 0x202) := by decide
/-- 2.3 row 22 -/
theorem test_loadRegs_itself :
    after 0xF165 (fun s => { s with index := 0x200 }) (regsPc [0, 1]) = some ([0xF1, 0x65], 0x202) := by decide
/-- 2.4 row 1 -/
theorem test_cls :
    after 0x00E0 (fun s => { s with disp := s.disp.toggle 3 4 }) (fun t => (t.disp.pixel 3 4, t.disp.pixel 0 0)) =
    some (false, false) := by decide
/-- 2.4 row 4 -/
theorem test_drw_wraps :
    after 0xD012 (fun s => { (withRegs 0 60 1 31 (withBytes 0x20A [0xFF, 0x81] s)) with index := 0x20A })
      (fun t => ([(31, 60), (31, 63), (31, 0), (31, 3), (31, 4), (0, 60), (0, 3), (0, 61)].map fun p =>
        t.disp.pixel p.1 p.2, (t.reg 0xF).toNat)) =
    some ([true, true, true, true, false, true, true, false], 0) := by decide
/-- 2.4 row 10 -/
theorem test_drw_hits :
    after 0xD011 (fun s => { (withBytes 0x300 [0x60] s) with
        index := 0x300, disp := (s.disp.toggle 0 0).toggle 0 1 })
      (fun t => (t.disp.pixel 0 0, t.disp.pixel 0 1, t.disp.pixel 0 2, (t.reg 0xF).toNat)) =
    some (true, false, true, 1) := by decide
/-- 2.5 rows 2 and 5 -/
theorem test_skp_low_nibble :
    after 0xE29E (fun s => { s.setReg 2 7 with key := 0x0100 }) (regsPc []) = some ([], 0x202) ∧
    after 0xE29E (fun s => { s.setReg 2 0x17 with key := 0x0080 }) (regsPc []) = some ([], 0x204) := by decide
/-- 2.5 rows 3 and 4 -/
theorem test_sknp :
    after 0xE2A1 (·.setReg 2 7) (regsPc []) = some ([], 0x204) ∧
    after 0xE2A1 (fun s => { s.setReg 2 7 with key := 0x0080 }) (regsPc []) = some ([], 0x202) := by decide
/-- S8 -/
theorem test_ldVxK_waits :
    after 0xF20A (fun s => { s with dt := 3, st := 2 }) (fun t => (t.pc.toNat, t.dt.toNat, t.st.toNat)) =
    some (0x200, 2, 1) := by decide
/-- 2.5 row 8 -/
theorem test_ldVxK_takes :
    after 0xF50A (fun s => { s with key := 0x1000 }) (regsPc [5]) = some ([0x0C], 0x202) := by decide
/-- 2.5 row 10 -/
theorem test_ldVxDt :
    after 0xF107 (fun s => { s with dt := 2 }) (fun t => ((t.reg 1).toNat, t.dt.toNat)) = some (2, 1) := by decide
/-- 2.5 rows 12 and 13 -/
theorem test_ldDtVx :
    after 0xF015 (·.setReg 0 3) (fun t => t.dt.toNat) = some 2 ∧
    after 0xF415 (fun s => { s with dt := 9 }) (fun t => t.dt.toNat) = some 0 := by decide
/-- 2.5 row 14 -/
theorem test_ldStVx :
    after 0xF418 (·.setReg 4 0x10) (fun t => t.st.toNat) = some 0x0F := by decide
/-- 2.5 row 16 -/
theorem test_tick :
    after 0x1200 (fun s => { s with dt := 255, st := 1 }) (fun t => (t.dt.toNat, t.st.toNat)) = some (254, 0) := by decide
/-- S9 -/
theorem test_unknown_opcode :
    after 0x0FFF id (fun t => (errorOf t, t.errOpcode.toNat)) = some ((true, 4), 0x0FFF) := by decide
/-- 2.6 rows 2 and 3 -/
theorem test_fetch_edge :
    after 0x6007 (fun s => { s with pc := 4094 }) (regsPc [0]) = some ([7], 4096) ∧
    (match step { State.reset with pc := 4095 } with
      | .next t => some (errorOf t)
      | _ => none) = some (true, 5) := by decide
/-- A program of one byte more than fits. -/
def tooLong : List Byte := List.replicate 3585 0x12#8

/-- The largest program that fits. -/
def largest : List Byte := List.replicate 3584 0x12#8

theorem tooLong_length : tooLong.length > 3584 := Nat.le_of_eq (Eq.symm List.length_replicate)
theorem largest_length : largest.length ≤ 3584 := Nat.le_of_eq List.length_replicate

/-- 2.7 row 2 -/
theorem test_init_too_long : (init tooLong State.reset).halt = true := by
  unfold init
  rw [if_neg (Nat.not_le_of_gt tooLong_length)]
  rfl
/-- 2.7 row 4 -/
theorem test_init_odd_length :
    ((init [0x12#8] State.reset).mem.read 0x200, (init [0x12#8] State.reset).mem.read 0x201) = (0x12, 0x00) := by decide

/-! ### Witnesses: for each statement with hypotheses, a state and operands that meet them, at the edges of their ranges -/

/-- A running state with `LD V3,0x2A` next. -/
def runs : State := start 0x632A id

/-- The same at the last address a fetch can start from. -/
def runsAtTheEnd : State := start 0x632A fun s => { s with pc := 4094 }

theorem runs_decodes : decode (opcodeAt runs) = .instr (.ldImm 3 0x2A) := by decide
theorem runsAtTheEnd_decodes : decode (opcodeAt runsAtTheEnd) = .instr (.ldImm 3 0x2A) := by decide
theorem runs_wf : runs.mem.wf := by decide

theorem witness_EncodeDecode : decode 0x8236#16 = .instr (.shr 2 3) := by decide
theorem witness_DecoderIsTheOpcodeMap :
    MatchesRow 0x8236#16 (.shr 2 3) ∧ decode 0x8236#16 = .instr (.shr 2 3) ∧ decode 0x0FFF#16 = .unknownOpcode 0x0FFF := by
  unfold MatchesRow; decide
theorem witness_StepRunsTheDecodedInstruction :
    runsAtTheEnd.halt = false ∧ runsAtTheEnd.pc.toNat + 2 ≤ 4096 ∧
    decode (opcodeAt runsAtTheEnd) = .instr (.ldImm 3 0x2A) ∧
    ∃ t, exec (.ldImm 3 0x2A) { runsAtTheEnd with pc := runsAtTheEnd.pc + 2 } = .next t :=
  ⟨by decide, by decide, by decide, _, rfl⟩
theorem witness_StepRunsEncodedBytes :
    runsAtTheEnd.halt = false ∧ runsAtTheEnd.pc.toNat + 2 ≤ 4096 ∧
    [runsAtTheEnd.mem.read runsAtTheEnd.pc.toNat, runsAtTheEnd.mem.read (runsAtTheEnd.pc.toNat + 1)] =
      encodeBytes (.ldImm 3 0x2A) := by decide
theorem witness_FetchBoundsCheck :
    ({ State.reset with pc := 4095 } : State).halt = false ∧ ({ State.reset with pc := 4095 } : State).pc.toNat > 4094 ∧
    ({ State.reset with pc := 4094 } : State).pc.toNat ≤ 4094 := by decide
theorem witness_UnknownOpcodeRecordsTheWord :
    State.reset.halt = false ∧ State.reset.pc.toNat ≤ 4094 ∧ ∀ i, ¬ MatchesRow (opcodeAt State.reset) i := by
  refine ⟨by decide, by decide, ?_⟩
  have h : opcodeAt State.reset = 0x0000#16 := by decide
  intro i
  rw [h]
  cases i <;> simp [MatchesRow, matchMask]
theorem witness_HaltedStepChangesNothing : ({ State.reset with halt := true } : State).halt = true := rfl
/-- One state for each outcome of the table, and both sides of INIT's bound. -/
theorem witness_ErrorsByInstruction :
    stepError runs = none ∧ stepError { runs with pc := 4095 } = some .memoryOutOfBounds ∧
    stepError State.reset = some .unknownOpcode ∧ stepError (start 0x00EE id) = some .stackUnderflow ∧
    stepError (start 0x2ABC fun s => { s with sp := 16 }) = some .stackOverflow ∧
    stepError (start 0xF033 fun s => { s with index := 4094 }) = some .memoryOutOfBounds ∧
    stepError (start 0xF033 fun s => { s with index := 4093 }) = none ∧
    stepError (start 0xFF55 fun s => { s with index := 4081 }) = some .memoryOutOfBounds ∧
    stepError (start 0xFF65 fun s => { s with index := 4080 }) = none ∧
    tooLong.length > 3584 ∧ largest.length ≤ 3584 :=
  ⟨by decide, by decide, by decide, by decide, by decide, by decide, by decide, by decide, by decide, tooLong_length,
    largest_length⟩
theorem witness_PcAfterStep :
    runsAtTheEnd.halt = false ∧ runsAtTheEnd.pc.toNat ≤ 4094 ∧
    decode (opcodeAt runsAtTheEnd) = .instr (.ldImm 3 0x2A) ∧
    ∃ t, step runsAtTheEnd = .next t ∧ t.halt = false :=
  ⟨by decide, by decide, by decide, _, rfl, rfl⟩
theorem witness_FlagRegisterAfter :
    runs.halt = false ∧ (∃ t, exec (.addReg 0xF 0xF) runs = .next t ∧ t.halt = false) ∧
    largest.length ≤ 3584 :=
  ⟨by decide, ⟨_, rfl, rfl⟩, largest_length⟩
theorem witness_OnlyItsOwnStateIsWritten :
    runs.halt = false ∧ ∃ t, exec (.storeRegs 3) runs = .next t ∧ t.halt = false :=
  ⟨by decide, _, rfl, by decide⟩
/-- A storing instruction whose stored bytes end at the last byte of memory, and CALL with one entry left. -/
theorem witness_OnlyItsOwnStateIsWritten_edges :
    (∃ t, exec (.storeRegs 3) { runs with index := 4092 } = .next t ∧ t.halt = false) ∧
    (∃ t, exec (.call 0xABC) { runs with sp := 15 } = .next t ∧ t.halt = false) ∧
    ¬ stackEntryStored (.call 0xABC) { runs with sp := 15 } 14 :=
  ⟨⟨_, rfl, by decide⟩, ⟨_, rfl, rfl⟩, by unfold stackEntryStored; decide⟩
theorem witness_UnreadRegistersDoNotMatter :
    ¬ readsReg (.ldImm 3 0x2A) 3 ∧ instrError (.ldImm 3 0x2A) runs = none ∧
    ¬ readsReg (.storeRegs 3) 4 ∧ instrError (.storeRegs 3) { runs with index := 4092 } = none := by
  refine ⟨?_, rfl, ?_, by decide⟩ <;> unfold readsReg <;> decide
/-- The premise of the comparisons of whole states: a STEP that raises no error. -/
theorem witness_step_raises_no_error :
    (∃ t, step runs = .next t ∧ t.halt = runs.halt) ∧ ∃ t, stepWith 0xA7 runs = .next t ∧ t.halt = runs.halt :=
  ⟨⟨_, rfl, rfl⟩, _, rfl, rfl⟩
theorem witness_KeyLatchIsTheHosts : (∃ t, step runs = .next t) ∧ largest.length ≤ 3584 :=
  ⟨⟨_, rfl⟩, largest_length⟩
theorem witness_KeysReachOnlyKeyInstructions (x : RegNo) :
    decode (opcodeAt runs) ≠ .instr (.skp x) ∧ decode (opcodeAt runs) ≠ .instr (.sknp x) ∧
    decode (opcodeAt runs) ≠ .instr (.ldVxK x) := by
  rw [runs_decodes]; simp
theorem witness_RandomByteReachesOnlyRnd (x : RegNo) (nn : Byte) : decode (opcodeAt runs) ≠ .instr (.rnd x nn) := by
  rw [runs_decodes]; simp

/-- The running witness meets the invariant. -/
theorem runs_inv : runs.Inv :=
  ⟨by decide, fun _ => ⟨rfl, by decide, fun k _ hk => absurd hk (by simp [runs, start, State.withFetchWord, State.putOpcode, State.reset])⟩⟩
theorem witness_StepKeepsTheInvariant : runs.Inv ∧ ∃ t, step runs = .next t := ⟨runs_inv, _, rfl⟩
theorem witness_MovesKeepTheInvariant : runs.Inv ∧ ∃ t, applyMove (.writeKey 3 true) runs = .next t := ⟨runs_inv, _, rfl⟩
theorem witness_OnlyInitLeavesHalt :
    ({ runs with halt := true } : State).halt = true ∧
    (∃ t, applyMove (.hostInit [0x12#8]) { runs with halt := true } = .next t ∧ t.halt = false) ∧
    (∃ t, stepWith 0xA7 { runs with halt := true } = .next t) ∧ [0x12#8].length ≤ 3584 :=
  ⟨rfl, ⟨_, rfl, by decide⟩, ⟨_, rfl⟩, by decide⟩
/-- A font byte overwritten, and the last byte of the image. -/
theorem witness_MemoryFormIsCanonical :
    Memory.wf [(0x000, 0x00#8), (0xFFF, 0x12#8)] ∧
    ∀ a, a < 4096 → Memory.read [(0x000, 0x00#8), (0xFFF, 0x12#8)] a = Memory.read [(0x000, 0x00#8), (0xFFF, 0x12#8)] a :=
  ⟨by decide, fun _ _ => rfl⟩
theorem witness_TimersTickOncePerStep :
    (start 0xF015 id).halt = false ∧ (start 0xF015 id).pc.toNat ≤ 4094 ∧
    decode (opcodeAt (start 0xF015 id)) = .instr (.ldDtVx 0) ∧
    ∃ t, step (start 0xF015 id) = .next t ∧ t.halt = false :=
  ⟨by decide, by decide, by decide, _, rfl, rfl⟩
/-- One quiet step for each timer: no timer load runs. -/
theorem witness_TimersCountDown :
    (∃ t, QuietSteps .ldDtVx 1 runs t) ∧ ∃ t, QuietSteps .ldStVx 1 runs t := by
  have hf : ∀ op, fetch runs = some op → decode op = .instr (.ldImm 3 0x2A) := by
    intro op h
    have h2 : fetch runs = some 0x632A#16 := by decide
    rw [h2] at h
    cases h
    decide
  refine ⟨⟨_, _, rfl, by decide, by decide, ?_, rfl⟩, ⟨_, _, rfl, by decide, by decide, ?_, rfl⟩⟩ <;>
    · intro op x h
      rw [hf op h]
      simp
theorem witness_StoresReachTheNextFetch :
    ({ runs with index := 4094 } : State).mem.wf ∧ 1 ≤ (0x1#4).toNat ∧
    ({ runs with index := 4094 } : State).index.toNat + (0x1#4).toNat + 1 ≤ 4096 := by decide
theorem witness_InitBuildsTheResetState :
    largest.length ≤ 3584 ∧ ([] : List Byte).length ≤ 3584 := ⟨largest_length, by decide⟩
theorem witness_InitRejectsALargeProgram :
    tooLong.length > 3584 ∧ largest.length ≤ 3584 ∧ largest.length = 3584 ∧
    State.reset.halt = false ∧ ∃ t, step State.reset = .next t ∧ t.halt = true :=
  ⟨tooLong_length, largest_length, List.length_replicate, rfl, _, rfl, rfl⟩
theorem witness_ReturnPops :
    ({ runs with sp := 1 } : State).sp.val ≠ 0 ∧ ({ runs with sp := 16 } : State).sp.val ≠ 0 ∧ runs.sp.val = 0 := by decide
theorem witness_CallPushes :
    runs.sp.val < 16 ∧ ({ runs with sp := 15 } : State).sp.val < 16 ∧ ({ runs with sp := 16 } : State).sp.val = 16 := by
  decide
theorem witness_destination_is_not_vf : (0xE#4 : RegNo) ≠ 0xF#4 := by decide
theorem witness_StoreBcdWritesDigits :
    runs.mem.wf ∧ ({ runs with index := 4093 } : State).index.toNat + 3 ≤ 4096 ∧
    ({ runs with index := 4094 } : State).index.toNat > 4093 := by decide
theorem witness_transfers_of_registers :
    runs.mem.wf ∧ ({ runs with index := 4080 } : State).index.toNat + (0xF#4).toNat + 1 ≤ 4096 ∧
    ({ runs with index := 4081 } : State).index.toNat + (0xF#4).toNat > 4095 ∧
    ({ runs with index := 4095 } : State).index.toNat + (0x0#4).toNat + 1 ≤ 4096 := by decide
/-- Glyph "0" at column 62, row 30 (section 3 of 44_display.md): its corner pixels are covered, the next ones not, and the row
of a sprite at the end of memory that would be read outside it is not. -/
theorem witness_DrawTogglesCoveredPixels :
    SpriteCovers [] 0 62 30 5 30 62 ∧ SpriteCovers [] 0 62 30 5 2 1 ∧ ¬ SpriteCovers [] 0 62 30 5 2 2 ∧
    ¬ SpriteCovers [] 0 62 30 5 3 62 ∧ SpriteCovers [(4095, 0x80#8)] 4095 0 0 2 0 0 ∧
    ¬ SpriteCovers [(4095, 0x80#8)] 4095 0 0 2 1 0 := by
  unfold SpriteCovers; decide
theorem witness_DrawTogglesCoveredPixels_hit :
    SpriteCovers [] 0 0 0 1 0 0 ∧ (State.reset.disp.toggle 0 0).pixel 0 0 = true := by
  unfold SpriteCovers; decide
theorem witness_WaitForKeyPolls : runs.key = 0 ∧ ({ runs with key := 0x8000 } : State).key ≠ 0 := by decide

end Sys2Proof.Tests
end

/-! SUPPORT. The PC and the key latch through every instruction: one lemma per shared operation, then one over `exec`
(10_state.md R15, R23). -/

namespace Sys2Proof.Machine

open Sys2Proof.Claims

/-! ### The key latch (R23) -/

@[simp] theorem skipIf_key (c : Bool) (s : State) : (skipIf c s).key = s.key := by
  rw [skipIf_eq]

@[simp] theorem endStep_key (t : State) : (endStep t).key = t.key := by
  unfold endStep; split <;> rfl

@[simp] theorem State.setRegsFrom_key (s : State) (k : Nat) (bs : List Byte) : (s.setRegsFrom k bs).key = s.key := by
  rw [State.setRegsFrom_frame]

theorem storeAtIndex_key (bs : List Byte) (s : State) : (storeAtIndex bs s).key = s.key := by
  unfold storeAtIndex; split <;> rfl

theorem loadAtIndex_key (n : Nat) (s : State) : (loadAtIndex n s).key = s.key := by
  unfold loadAtIndex; split <;> simp

/-- A push keeps the latch where what follows it does; so does the error of a full stack. -/
theorem pushThen_key (w : Word) {k : State → State} (hk : ∀ t, (k t).key = t.key) (s : State) :
    (pushThen w k s).key = s.key := by
  unfold pushThen
  split
  · exact hk _
  · rfl

/-- A pop keeps the latch where what follows it does; so does the error of an empty stack. -/
theorem popThen_key {k : Word → State → State} (hk : ∀ w t, (k w t).key = t.key) (s : State) :
    (popThen k s).key = s.key := by
  unfold popThen
  split
  · rfl
  · exact hk _ _

theorem exec_ldVxK_key {x : RegNo} {s t : State} (h : exec (.ldVxK x) s = .next t) : t.key = s.key := by
  by_cases hk : s.key = 0
  · rw [exec_ldVxK_of_none hk] at h; cases h; rfl
  · rw [exec_ldVxK_of_some hk] at h; cases h; rfl

/-- No instruction writes the key latch, and no error of one does. -/
theorem exec_key {i : Instr} {s t : State} (h : exec i s = .next t) : t.key = s.key := by
  cases i with
  | ldVxK x => exact exec_ldVxK_key h
  | ret => cases h; refine popThen_key ?_ s; intros; rfl
  | call nnn => cases h; refine pushThen_key s.pc ?_ s; intros; rfl
  | seImm | sneImm | seReg | sneReg | skp | sknp => cases h; exact skipIf_key _ s
  | ldB | storeRegs => cases h; exact storeAtIndex_key _ s
  | loadRegs x => cases h; exact loadAtIndex_key _ s
  | _ => cases h; rfl

theorem step_key {s t : State} (h : step s = .next t) : t.key = s.key := by
  rcases step_cases h with ⟨-, rfl⟩ | ⟨-, -, rfl⟩ | ⟨op, w, -, -, -, rfl⟩ | ⟨op, i, u, -, -, -, hu, rfl⟩
  · rfl
  · rfl
  · rfl
  · rw [endStep_key, exec_key hu, advancePc_key]

theorem init_of_fits {rom : List Byte} (h : rom.length ≤ 3584) (s : State) : init rom s = loadProgram rom s := by
  unfold init; rw [if_pos h]

@[simp] theorem loadProgram_key (rom : List Byte) (s : State) : (loadProgram rom s).key = 0 := rfl

/-! ### The PC (R15) -/

@[simp] theorem endStep_pc (t : State) : (endStep t).pc = t.pc := by
  unfold endStep; split <;> rfl

/-- The post-fetch PC does not wrap. -/
theorem advancePc_pc_toNat {s : State} (h : s.pc.toNat ≤ 4094) : (advancePc s).pc.toNat = s.pc.toNat + 2 := by
  rw [advancePc_pc]; bv_omega

theorem skipIf_advancePc_pc_toNat {s : State} (h : s.pc.toNat ≤ 4094) (c : Bool) :
    (skipIf c (advancePc s)).pc.toNat = s.pc.toNat + if c then 4 else 2 := by
  cases c with
  | false => exact advancePc_pc_toNat h
  | true =>
    have h2 := advancePc_pc_toNat h
    simp only [skipIf_true, if_true]
    bv_omega

theorem zextAddr_toNat (nnn : BitVec 12) : (zextAddr nnn).toNat = nnn.toNat :=
  BitVec.toNat_setWidth_of_le (by decide)

theorem zextByte_toNat (b : Byte) : (zextByte b).toNat = b.toNat :=
  BitVec.toNat_setWidth_of_le (by decide)

/-- The target of JP V0 does not wrap (41_control_flow.md R108). -/
theorem offsetTarget_toNat (nnn : BitVec 12) (s : State) :
    (offsetTarget nnn s).toNat = nnn.toNat + (s.reg 0).toNat := by
  have hn := nnn.isLt
  have hb := (s.reg 0).isLt
  unfold offsetTarget
  rw [BitVec.toNat_add, zextAddr_toNat, zextByte_toNat]
  omega

/-- A store that did not halt the core changed memory and nothing else. -/
theorem storeAtIndex_of_running {bs : List Byte} {s : State} (h : (storeAtIndex bs s).halt = false) :
    storeAtIndex bs s = { s with mem := s.mem.writeList s.index.toNat bs } := by
  by_cases hb : InBounds s.index.toNat bs.length
  · exact storeAtIndex_of_inBounds hb
  · rw [storeAtIndex_of_outside hb] at h; cases h

/-- A load that did not halt the core changed registers and nothing else. -/
theorem loadAtIndex_of_running {n : Nat} {s : State} (h : (loadAtIndex n s).halt = false) :
    loadAtIndex n s = s.setRegsFrom 0 (s.mem.readList s.index.toNat n) := by
  by_cases hb : InBounds s.index.toNat n
  · exact loadAtIndex_of_inBounds hb
  · rw [loadAtIndex_of_outside hb] at h; cases h

/-- An instruction that does not list the PC among what it writes leaves the post-fetch PC, where it raises no error. -/
theorem exec_pc_of_not_written {i : Instr} {s t : State} (hp : Part.pc ∉ partsWritten i) (h : exec i s = .next t)
    (ht : t.halt = false) : t.pc = s.pc := by
  cases i with
  | ret | jp | call | jpV0 | seImm | sneImm | seReg | sneReg | skp | sknp | ldVxK =>
    simp [partsWritten] at hp
  | ldB | storeRegs => cases h; rw [storeAtIndex_of_running ht]
  | loadRegs x => cases h; rw [loadAtIndex_of_running ht, State.setRegsFrom_frame]
  | _ => cases h; rfl

/-- RET that raises no error leaves the top return address in the PC. -/
theorem exec_ret_pc {s t : State} (h : exec .ret s = .next t) (ht : t.halt = false) :
    s.stack[s.sp.val - 1]? = some t.pc := by
  by_cases hsp : s.sp.val = 0
  · rw [exec_ret_of_empty hsp] at h
    exact (not_halted_of_error h ht).elim
  · rw [exec_ret_of_ne hsp] at h
    cases h
    exact Vector.getElem?_eq_getElem _

/-- CALL that raises no error leaves its target in the PC. -/
theorem exec_call_pc {nnn : BitVec 12} {s t : State} (h : exec (.call nnn) s = .next t) (ht : t.halt = false) :
    t.pc = zextAddr nnn := by
  by_cases hsp : s.sp.val < 16
  · rw [exec_call_of_lt hsp] at h
    cases h
    rfl
  · rw [exec_call_of_full (by omega)] at h
    exact (not_halted_of_error h ht).elim

/-- LD Vx,K goes back to its own address where no key is down and lets the PC stand where one is. -/
theorem exec_ldVxK_pc {x : RegNo} {s t : State} (h : exec (.ldVxK x) s = .next t) :
    t.pc = if s.key = 0 then s.pc - 2 else s.pc := by
  by_cases hk : s.key = 0
  · rw [exec_ldVxK_of_none hk] at h; cases h; rw [if_pos hk]
  · rw [exec_ldVxK_of_some hk] at h; cases h; rw [if_neg hk, State.setReg_pc]

/-- The table of R15 for the instruction alone, run on the post-fetch state. -/
theorem exec_advancePc_pcAfter {i : Instr} {s t : State} (hpc : s.pc.toNat ≤ 4094)
    (h : exec i (advancePc s) = .next t) (ht : t.halt = false) : PcAfter i s t := by
  cases i with
  | ret => exact exec_ret_pc h ht
  | jp nnn => cases h; exact zextAddr_toNat nnn
  | call nnn =>
    show t.pc.toNat = nnn.toNat
    rw [exec_call_pc h ht, zextAddr_toNat]
  | jpV0 nnn => cases h; exact offsetTarget_toNat nnn (advancePc s)
  | seImm | sneImm | seReg | sneReg | skp | sknp => cases h; exact skipIf_advancePc_pc_toNat hpc _
  | ldVxK x =>
    show t.pc.toNat = s.pc.toNat + if s.key = 0 then 0 else 2
    rw [exec_ldVxK_pc h, advancePc_key, advancePc_pc, BitVec.add_sub_cancel]
    split
    · rfl
    · exact advancePc_pc_toNat hpc
  | _ =>
    show t.pc.toNat = s.pc.toNat + 2
    rw [exec_pc_of_not_written (by simp [partsWritten]) h ht, advancePc_pc_toNat hpc]

/-- The table of R15 speaks of the next state's PC only. -/
theorem pcAfter_of_pc_eq {i : Instr} {s t u : State} (hpc : u.pc = t.pc) (h : PcAfter i s t) : PcAfter i s u := by
  unfold PcAfter at h ⊢
  rw [hpc]
  exact h

/-- A running STEP at PC 4094 or below runs the instruction its opcode decodes to. -/
theorem step_of_decode_opcodeAt {s : State} {i : Instr} (hs : s.halt = false) (hpc : s.pc.toNat ≤ 4094)
    (hd : decode (opcodeAt s) = .instr i) : step s = finishStep (exec i (advancePc s)) :=
  step_of_instr hs (fetch_of_le (by omega)) hd

/-! ### The two statements -/

/-- Settles O14: the table holds of the instruction run after the fetch, and the tick keeps the PC. -/
theorem pcAfterStep : Obligations.PcAfterStep := by
  intro s t i hs hpc hd hstep ht
  rw [step_of_decode_opcodeAt hs hpc hd] at hstep
  obtain ⟨u, hu, rfl⟩ := finishStep_next hstep
  rw [endStep_halt] at ht
  exact pcAfter_of_pc_eq (endStep_pc u) (exec_advancePc_pcAfter hpc hu ht)

/-- Settles O18: every phase of STEP keeps the latch, errors included, and INIT starts from the reset state's. -/
theorem keyLatchIsTheHosts : Obligations.KeyLatchIsTheHosts := by
  refine ⟨fun s t => step_key, fun rom s hrom k => ?_⟩
  rw [init_of_fits hrom, loadProgram_key]
  exact BitVec.getLsbD_zero

end Sys2Proof.Machine

/-! SUPPORT. The bounds check of the fetch (40_step_cycle.md R90). -/

namespace Sys2Proof.Machine

open Sys2Proof.Claims

/-- Raising an error takes it: HALT and ERR are set and the key latch is kept (60_exceptions.md R181). -/
theorem errorTaken_raiseError (e : ErrorKind) (s : State) : ErrorTaken e s (raiseError e s) :=
  ⟨raiseError_halt e s, raiseError_err e s, raiseError_key e s⟩

theorem fetch_eq_opcodeAt {s : State} (hpc : s.pc.toNat ≤ 4094) : fetch s = some (opcodeAt s) :=
  fetch_of_le (by omega)

/-- The fetch fails, whatever memory holds, where the byte at `PC + 1` lies outside it. -/
theorem fetch_eq_none {s : State} (hpc : s.pc.toNat > 4094) : fetch s = none :=
  fetch_of_gt (by omega)

/-- Settles O9: a failed fetch ends STEP in the error before anything is decoded, and PC alone decides whether it fails. -/
theorem fetchBoundsCheck : Obligations.FetchBoundsCheck := by
  refine ⟨fun s hs hpc => ⟨raiseError .memoryOutOfBounds s, ?_, errorTaken_raiseError _ s⟩, fun s => fetch_eq_opcodeAt⟩
  exact step_of_fetch_none hs (fetch_eq_none hpc)

end Sys2Proof.Machine

/-! SUPPORT. The decoder against the opcode map (30_encoding.md R72, R74): a word is put together from its fields, a mask
keeps some of them, and so what a word decodes to has a row the word matches. -/

namespace Sys2Proof

open Sys2Proof.Claims

/-! ### A word is made of its fields (R71) -/

/-- A word cut at bit `k` into two fields and put together again. -/
theorem field_append_field (w : Word) {k n m : Nat} :
    w.extractLsb' (k + n) m ++ w.extractLsb' k n = w.extractLsb' k (m + n) :=
  BitVec.extractLsb'_append_extractLsb'_eq_extractLsb' rfl

theorem encodeNNN_fields (w : Word) : encodeNNN (fieldFam w) (fieldNNN w) = w :=
  (field_append_field w (k := 0) (n := 12) (m := 4)).trans BitVec.extractLsb'_eq_self

theorem encodeXNN_fields (w : Word) : encodeXNN (fieldFam w) (fieldX w) (fieldNN w) = w := by
  have hx : fieldFam w ++ fieldX w = w.extractLsb' 8 8 := field_append_field w (k := 8) (n := 4) (m := 4)
  rw [encodeXNN, hx]
  exact (field_append_field w (k := 0) (n := 8) (m := 8)).trans BitVec.extractLsb'_eq_self

theorem encodeXYN_fields (w : Word) : encodeXYN (fieldFam w) (fieldX w) (fieldY w) (fieldN w) = w := by
  have hx : fieldFam w ++ fieldX w = w.extractLsb' 8 8 := field_append_field w (k := 8) (n := 4) (m := 4)
  have hy : w.extractLsb' 8 8 ++ fieldY w = w.extractLsb' 4 12 := field_append_field w (k := 4) (n := 4) (m := 8)
  rw [encodeXYN, hx, hy]
  exact (field_append_field w (k := 0) (n := 4) (m := 12)).trans BitVec.extractLsb'_eq_self

/-! ### What a mask of the opcode map keeps (R72) -/

theorem encodeNNN_and (f g : BitVec 4) (a b : BitVec 12) :
    encodeNNN f a &&& encodeNNN g b = encodeNNN (f &&& g) (a &&& b) :=
  BitVec.and_append

theorem encodeXNN_and (f g : BitVec 4) (x y : RegNo) (a b : Byte) :
    encodeXNN f x a &&& encodeXNN g y b = encodeXNN (f &&& g) (x &&& y) (a &&& b) :=
  BitVec.and_append.trans (congrArg (· ++ (a &&& b)) BitVec.and_append)

theorem encodeXYN_and (f g : BitVec 4) (x x' y y' : RegNo) (a b : BitVec 4) :
    encodeXYN f x y a &&& encodeXYN g x' y' b = encodeXYN (f &&& g) (x &&& x') (y &&& y') (a &&& b) :=
  BitVec.and_append.trans (congrArg (· ++ (a &&& b))
    (BitVec.and_append.trans (congrArg (· ++ (y &&& y')) BitVec.and_append)))

/-- The mask of a row whose only fixed field is the family. -/
theorem and_familyMask (w : Word) : w &&& 0xF000#16 = encodeNNN (fieldFam w) 0#12 := by
  calc w &&& 0xF000#16 = encodeNNN (fieldFam w) (fieldNNN w) &&& encodeNNN (BitVec.allOnes 4) 0#12 := by
        rw [encodeNNN_fields]; rfl
    _ = encodeNNN (fieldFam w) 0#12 := by rw [encodeNNN_and, BitVec.and_allOnes, BitVec.and_zero]

/-- The mask of a row whose sub-opcode is the low nibble. -/
theorem and_lowNibbleMask (w : Word) : w &&& 0xF00F#16 = encodeXYN (fieldFam w) 0#4 0#4 (fieldN w) := by
  calc w &&& 0xF00F#16
      = encodeXYN (fieldFam w) (fieldX w) (fieldY w) (fieldN w) &&&
          encodeXYN (BitVec.allOnes 4) 0#4 0#4 (BitVec.allOnes 4) := by rw [encodeXYN_fields]; rfl
    _ = encodeXYN (fieldFam w) 0#4 0#4 (fieldN w) := by
        rw [encodeXYN_and, BitVec.and_allOnes, BitVec.and_allOnes, BitVec.and_zero, BitVec.and_zero]

/-- The mask of a row whose sub-opcode is the low byte. -/
theorem and_lowByteMask (w : Word) : w &&& 0xF0FF#16 = encodeXNN (fieldFam w) 0#4 (fieldNN w) := by
  calc w &&& 0xF0FF#16
      = encodeXNN (fieldFam w) (fieldX w) (fieldNN w) &&&
          encodeXNN (BitVec.allOnes 4) 0#4 (BitVec.allOnes 8) := by rw [encodeXNN_fields]; rfl
    _ = encodeXNN (fieldFam w) 0#4 (fieldNN w) := by
        rw [encodeXNN_and, BitVec.and_allOnes, BitVec.and_allOnes, BitVec.and_zero]

/-! ### Matching a row by its fixed fields -/

theorem matchesRow_of_family {w : Word} {i : Instr} {f : BitVec 4} (hf : fieldFam w = f)
    (hi : matchMask i = (encodeNNN f 0#12, 0xF000#16)) : MatchesRow w i := by
  rw [MatchesRow, hi, and_familyMask, hf]

theorem matchesRow_of_lowNibble {w : Word} {i : Instr} {f n : BitVec 4} (hf : fieldFam w = f) (hn : fieldN w = n)
    (hi : matchMask i = (encodeXYN f 0#4 0#4 n, 0xF00F#16)) : MatchesRow w i := by
  rw [MatchesRow, hi, and_lowNibbleMask, hf, hn]

theorem matchesRow_of_lowByte {w : Word} {i : Instr} {f : BitVec 4} {nn : Byte} (hf : fieldFam w = f)
    (hnn : fieldNN w = nn) (hi : matchMask i = (encodeXNN f 0#4 nn, 0xF0FF#16)) : MatchesRow w i := by
  rw [MatchesRow, hi, and_lowByteMask, hf, hnn]

/-! ### What a word decodes to fits the word -/

/-- An instruction whose row the word matches, or the rejection of this very word. -/
def Decoded.Fits (w : Word) : Decoded → Prop
  | .instr i => MatchesRow w i
  | .unknownOpcode u => u = w

/-- One branch of the decoder's chain of tests, and the rest of the chain. -/
theorem fits_ite {w : Word} {c : Prop} [Decidable c] {d e : Decoded} (hd : c → d.Fits w) (he : ¬ c → e.Fits w) :
    (if c then d else e).Fits w := by
  split
  · next hc => exact hd hc
  · next hc => exact he hc

theorem decodeFamily0_fits (w : Word) : (decodeFamily0 w).Fits w := by
  refine fits_ite (fun hcls => ?_) fun _ => fits_ite (fun hret => ?_) fun _ => rfl
  · rw [hcls]; rfl
  · rw [hret]; rfl

/-- Families 5 and 9: one instruction, its sub-opcode 0. -/
theorem decodeCompare_fits {w : Word} {f : BitVec 4} {i : Instr} (hf : fieldFam w = f)
    (hi : matchMask i = (encodeXYN f 0#4 0#4 0x0#4, 0xF00F#16)) :
    (if fieldN w = 0x0#4 then Decoded.instr i else .unknownOpcode w).Fits w :=
  fits_ite (fun hn => matchesRow_of_lowNibble hf hn hi) fun _ => rfl

theorem decodeAlu_fits {w : Word} (hf : fieldFam w = 0x8#4) : (decodeAlu w).Fits w := by
  unfold decodeAlu
  iterate 9 refine fits_ite (fun hn => matchesRow_of_lowNibble hf hn rfl) fun _ => ?_
  rfl

theorem decodeKeySkip_fits {w : Word} (hf : fieldFam w = 0xE#4) : (decodeKeySkip w).Fits w := by
  unfold decodeKeySkip
  iterate 2 refine fits_ite (fun hnn => matchesRow_of_lowByte hf hnn rfl) fun _ => ?_
  rfl

theorem decodeMisc_fits {w : Word} (hf : fieldFam w = 0xF#4) : (decodeMisc w).Fits w := by
  unfold decodeMisc
  iterate 9 refine fits_ite (fun hnn => matchesRow_of_lowByte hf hnn rfl) fun _ => ?_
  rfl

/-- Decoding is sound for the opcode map, and a rejection carries the word itself: family by family, in R74's order. -/
theorem decode_fits (w : Word) : (decode w).Fits w := by
  unfold decode
  refine fits_ite (fun _ => decodeFamily0_fits w) fun _ => ?_
  iterate 4 refine fits_ite (fun hf => matchesRow_of_family hf rfl) fun _ => ?_
  refine fits_ite (fun hf => decodeCompare_fits hf rfl) fun _ => ?_
  iterate 2 refine fits_ite (fun hf => matchesRow_of_family hf rfl) fun _ => ?_
  refine fits_ite decodeAlu_fits fun _ => ?_
  refine fits_ite (fun hf => decodeCompare_fits hf rfl) fun _ => ?_
  iterate 4 refine fits_ite (fun hf => matchesRow_of_family hf rfl) fun _ => ?_
  refine fits_ite decodeKeySkip_fits fun _ => ?_
  have hf : fieldFam w = 0xF#4 := by simpa [*] using nibble_cases (fieldFam w)
  exact decodeMisc_fits hf

/-- A word that matches no row of the opcode map is rejected with itself. -/
theorem decode_of_no_row {w : Word} (h : ∀ i, ¬ MatchesRow w i) : decode w = .unknownOpcode w := by
  have hfits := decode_fits w
  cases hd : decode w with
  | instr i =>
    rw [hd] at hfits
    exact (h i hfits).elim
  | unknownOpcode u =>
    rw [hd] at hfits
    exact congrArg Decoded.unknownOpcode hfits

end Sys2Proof

/-! SUPPORT. The errors of a STEP (60_exceptions.md R188): what an instruction and a STEP answer for the error the table
gives them, one lemma per level of the table, and the unknown opcode that is recorded (R172). -/

namespace Sys2Proof.Machine

open Sys2Proof.Claims

/-- What `t` shows, seen from `s`, of the error the table of R188 gives: that error taken, or none and `ERR` as before. -/
def ShowsError (s t : State) : Option ErrorKind → Prop
  | some e => ErrorTaken e s t
  | none => t.halt = false ∧ t.err = s.err

/-! ### An instruction's own error -/

/-- A condition the table gives an error for: where it holds the error is raised, elsewhere none is. -/
theorem showsError_ite {c : Prop} [Decidable c] {e : ErrorKind} {s : State} {r : Result}
    (herr : c → r = .next (raiseError e s)) (hok : ¬ c → ∃ t, r = .next t ∧ ShowsError s t none) :
    ∃ t, r = .next t ∧ ShowsError s t (if c then some e else none) := by
  split
  · next hc => exact ⟨_, herr hc, errorTaken_raiseError e s⟩
  · next hc => exact hok hc

theorem showsError_skipIf {s : State} (hs : s.halt = false) (c : Bool) : ShowsError s (skipIf c s) none := by
  rw [skipIf_eq]
  exact ⟨hs, rfl⟩

theorem exec_ldVxK_showsError {s : State} (hs : s.halt = false) (x : RegNo) :
    ∃ t, exec (.ldVxK x) s = .next t ∧ ShowsError s t none := by
  by_cases hk : s.key = 0
  · exact ⟨_, exec_ldVxK_of_none hk x, hs, rfl⟩
  · exact ⟨_, exec_ldVxK_of_some hk x, hs, rfl⟩

/-- An instruction of a running core raises the error of its row of the table, and none where it has none. -/
theorem exec_showsError {s : State} (hs : s.halt = false) (i : Instr) :
    ∃ t, exec i s = .next t ∧ ShowsError s t (instrError i s) := by
  cases i with
  | ret => exact showsError_ite exec_ret_of_empty fun h => ⟨_, exec_ret_of_ne h, hs, rfl⟩
  | call nnn =>
    exact showsError_ite (fun h => exec_call_of_full h nnn) fun h => ⟨_, exec_call_of_lt (by omega) nnn, hs, rfl⟩
  | ldB x =>
    exact showsError_ite (fun h => exec_ldB_of_outside (by omega) x)
      fun h => ⟨_, exec_ldB_of_inBounds (by omega) x, hs, rfl⟩
  | storeRegs x =>
    exact showsError_ite (fun h => exec_storeRegs_of_outside (by omega))
      fun h => ⟨_, exec_storeRegs_of_inBounds (by omega), hs, rfl⟩
  | loadRegs x =>
    refine showsError_ite (fun h => exec_loadRegs_of_outside (by omega))
      fun h => ⟨_, exec_loadRegs_of_inBounds (by omega), ?_⟩
    rw [State.setRegsFrom_frame]
    exact ⟨hs, rfl⟩
  | ldVxK x => exact exec_ldVxK_showsError hs x
  | seImm | sneImm | seReg | sneReg | skp | sknp => exact ⟨_, rfl, showsError_skipIf hs _⟩
  | _ => exact ⟨_, rfl, hs, rfl⟩

/-- The instruction's check does not read the PC. -/
theorem instrError_advancePc (i : Instr) (s : State) : instrError i (advancePc s) = instrError i s := rfl

/-! ### The error of a STEP -/

theorem errorTaken_raiseUnknownOpcode (op : Word) (s : State) :
    ErrorTaken .unknownOpcode s (raiseUnknownOpcode op s) :=
  ⟨raiseUnknownOpcode_halt op s, raiseUnknownOpcode_err op s, raiseUnknownOpcode_key op s⟩

@[simp] theorem endStep_err (t : State) : (endStep t).err = t.err := by
  unfold endStep; split <;> rfl

/-- The fetch before the instruction and the tick after it change nothing an error shows. -/
theorem ShowsError.endStep_of_advancePc {s t : State} {o : Option ErrorKind} (h : ShowsError (advancePc s) t o) :
    ShowsError s (endStep t) o := by
  cases o <;> simpa [ShowsError, ErrorTaken] using h

theorem stepError_of_outside {s : State} (hpc : s.pc.toNat > 4094) : stepError s = some .memoryOutOfBounds := by
  unfold stepError; rw [if_pos hpc]

theorem stepError_of_unknown {s : State} {w : Word} (hpc : s.pc.toNat ≤ 4094)
    (hd : decode (opcodeAt s) = .unknownOpcode w) : stepError s = some .unknownOpcode := by
  unfold stepError; rw [if_neg (by omega), hd]

theorem stepError_of_instr {s : State} {i : Instr} (hpc : s.pc.toNat ≤ 4094)
    (hd : decode (opcodeAt s) = .instr i) : stepError s = instrError i s := by
  unfold stepError; rw [if_neg (by omega), hd]

/-- A STEP of a running core raises the error the table gives, in the order fetch, decode, instruction (R178). -/
theorem step_showsError {s : State} (hs : s.halt = false) : ∃ t, step s = .next t ∧ ShowsError s t (stepError s) := by
  by_cases hpc : s.pc.toNat > 4094
  · rw [stepError_of_outside hpc]
    exact ⟨_, step_of_fetch_none hs (fetch_eq_none hpc), errorTaken_raiseError _ s⟩
  · replace hpc : s.pc.toNat ≤ 4094 := by omega
    cases hd : decode (opcodeAt s) with
    | unknownOpcode w =>
      rw [stepError_of_unknown hpc hd]
      exact ⟨_, step_of_unknown hs (fetch_eq_opcodeAt hpc) hd, errorTaken_raiseUnknownOpcode w s⟩
    | instr i =>
      obtain ⟨t, ht, hshows⟩ := exec_showsError (s := advancePc s) hs i
      rw [instrError_advancePc] at hshows
      rw [stepError_of_instr hpc hd, step_of_decode_opcodeAt hs hpc hd, ht]
      exact ⟨_, rfl, hshows.endStep_of_advancePc⟩

theorem instrError_ne_romTooLarge (i : Instr) (s : State) : instrError i s ≠ some .romTooLarge := by
  cases i with
  | ret | call | ldB | storeRegs | loadRegs => unfold instrError; split <;> simp
  | _ => simp [instrError]

/-- No row of the table that a STEP can meet is RomTooLarge. -/
theorem stepError_ne_romTooLarge (s : State) : stepError s ≠ some .romTooLarge := by
  unfold stepError
  split
  · simp
  · split
    · simp
    · exact instrError_ne_romTooLarge _ s

/-- Settles O10: the decoder rejects exactly this word, which the error entry records. -/
theorem unknownOpcodeRecordsTheWord : Obligations.UnknownOpcodeRecordsTheWord := by
  intro s hs hpc hrow
  have hstep := step_of_unknown hs (fetch_eq_opcodeAt hpc) (decode_of_no_row hrow)
  exact ⟨_, hstep, errorTaken_raiseUnknownOpcode _ s, raiseUnknownOpcode_errOpcode _ s⟩

end Sys2Proof.Machine

/-! SUPPORT. INIT and the way out of HALT (60_exceptions.md R171, R182; 70_reset_and_hazards.md R201, R203). -/

namespace Sys2Proof.Machine

open Sys2Proof.Claims

/-! ### INIT -/

theorem init_of_too_long {rom : List Byte} (h : rom.length > 3584) (s : State) : init rom s = rejectProgram s := by
  unfold init; rw [if_neg (Nat.not_le_of_gt h)]

@[simp] theorem rejectProgram_halt (s : State) : (rejectProgram s).halt = true := rfl
@[simp] theorem rejectProgram_err (s : State) : (rejectProgram s).err = .romTooLarge := rfl
@[simp] theorem loadProgram_halt (rom : List Byte) (s : State) : (loadProgram rom s).halt = false := rfl
@[simp] theorem loadProgram_err (rom : List Byte) (s : State) : (loadProgram rom s).err = .none := rfl
@[simp] theorem loadProgram_mem (rom : List Byte) (s : State) :
    (loadProgram rom s).mem = Memory.writeList [] 0x200 rom := rfl

/-- An INIT above the bound fails with RomTooLarge (R171). -/
theorem init_too_long_error {rom : List Byte} (h : rom.length > 3584) (s : State) :
    (init rom s).halt = true ∧ (init rom s).err = .romTooLarge := by
  rw [init_of_too_long h]
  exact ⟨rejectProgram_halt s, rejectProgram_err s⟩

/-- An INIT within the bound raises no error. -/
theorem init_fits_no_error {rom : List Byte} (h : rom.length ≤ 3584) (s : State) :
    (init rom s).halt = false ∧ (init rom s).err = .none := by
  rw [init_of_fits h]
  exact ⟨loadProgram_halt rom s, loadProgram_err rom s⟩

/-- Byte `k` of an accepted program stands at 0x200 + k. -/
theorem init_read_program {rom : List Byte} (h : rom.length ≤ 3584) (s : State) {k : Nat} (hk : k < rom.length) :
    some ((init rom s).mem.read (0x200 + k)) = rom[k]? := by
  rw [init_of_fits h, loadProgram_mem, Memory.read_writeList Memory.nil_wf _ _ (by simp only [Config.memSize]; omega),
    if_pos (by omega), Nat.add_sub_cancel_left]
  simp [hk]

/-! ### Moves of a halted core -/

@[simp] theorem setKey_halt (k : BitVec 4) (down : Bool) (s : State) : (setKey k down s).halt = s.halt := rfl

/-- A STEP of a halted core, whatever its input byte, changes nothing of the machine's own state (R97). -/
theorem stepWith_of_halted {s : State} (h : s.halt = true) (rnd : Byte) :
    stepWith rnd s = .next { s with rndIn := [] } := by
  unfold stepWith
  rw [step_of_halted (s := { s with rndIn := [rnd] }) h]

/-! ### The statements -/

/-- Settles O12: the table for STEP is `step_showsError`, and INIT raises its error above its bound only. -/
theorem errorsByInstruction : Obligations.ErrorsByInstruction := by
  refine ⟨fun s hs => ?_, fun rom s => ⟨fun h => init_too_long_error h s, fun h => (init_fits_no_error h s).1⟩⟩
  obtain ⟨t, ht, hshows⟩ := step_showsError hs
  refine ⟨t, ht, fun e he => ?_, fun hnone => ?_⟩
  · rw [he] at hshows; exact hshows
  · rw [hnone] at hshows; exact hshows

/-- Settles O25: STEP and the key write keep HALT, a failing INIT sets it, and a successful one starts from the reset state. -/
theorem onlyInitLeavesHalt : Obligations.OnlyInitLeavesHalt := by
  refine ⟨fun m s t hs hm ht => ?_, fun rnd s t hs hstep => ?_, fun rom s u hrom => ?_⟩
  · cases m with
    | hostInit rom =>
      refine ⟨rom, rfl, Nat.le_of_not_gt fun hlong => ?_⟩
      cases hm
      rw [(init_too_long_error hlong s).1] at ht
      cases ht
    | stepOnce rnd =>
      rw [applyMove, stepWith_of_halted hs] at hm
      cases hm
      exact absurd hs (ne_true_of_eq_false ht)
    | writeKey k down =>
      cases hm
      exact absurd hs (ne_true_of_eq_false ht)
  · rw [stepWith_of_halted hs] at hstep
    cases hstep
    rfl
  · rw [init_of_fits hrom, init_of_fits hrom]
    rfl

/-- Settles O31: INIT's bound decides its error, and the table of a STEP's errors holds no RomTooLarge. -/
theorem initRejectsALargeProgram : Obligations.InitRejectsALargeProgram := by
  refine ⟨fun rom s => (init_too_long_error · s), fun rom s => (init_fits_no_error · s),
    fun rom s hrom k hk => init_read_program (by omega) s (by omega), fun s t hs hstep hhalt hrom => ?_⟩
  obtain ⟨u, hu, hshows⟩ := step_showsError hs
  rw [hu] at hstep
  cases hstep
  cases he : stepError s with
  | none =>
    rw [he] at hshows
    obtain ⟨hrun, -⟩ := hshows
    exact absurd hhalt (ne_true_of_eq_false hrun)
  | some e =>
    rw [he] at hshows
    obtain ⟨-, herr, -⟩ := hshows
    exact stepError_ne_romTooLarge s (he.trans (congrArg some (herr.symm.trans hrom)))

end Sys2Proof.Machine

/-! SUPPORT. The opcode map as the image of the encoder (30_encoding.md R72, R74, R84): decoding an encoded word, the word of
a row put together from its match and the word's own fields, and the map's rows as the legal words of R78. -/

namespace Sys2Proof

open Sys2Proof.Claims

/-! ### Decoding an encoded word -/

/-- Settles O1: the decoder's tests read back the family and sub-opcode of the row, and its fields the operands. -/
theorem decodeEncode : Obligations.DecodeEncode := by
  intro i
  cases i with
  | cls | ret => rfl
  | jp | call | ldI | jpV0 => simp [encode, decode, fieldFam_encodeNNN, fieldNNN_encodeNNN]
  | seImm | sneImm | ldImm | addImm | rnd =>
    simp [encode, decode, fieldFam_encodeXNN, fieldX_encodeXNN, fieldNN_encodeXNN]
  | seReg | sneReg | drw =>
    simp [encode, decode, fieldFam_encodeXYN, fieldX_encodeXYN, fieldY_encodeXYN, fieldN_encodeXYN]
  | ldReg | orReg | andReg | xorReg | addReg | sub | shr | subn | shl =>
    simp [encode, decode, decodeAlu, fieldFam_encodeXYN, fieldX_encodeXYN, fieldY_encodeXYN, fieldN_encodeXYN]
  | skp | sknp => simp [encode, decode, decodeKeySkip, fieldFam_encodeXNN, fieldX_encodeXNN, fieldNN_encodeXNN]
  | ldVxDt | ldVxK | ldDtVx | ldStVx | addI | ldF | ldB | storeRegs | loadRegs =>
    simp [encode, decode, decodeMisc, fieldFam_encodeXNN, fieldX_encodeXNN, fieldNN_encodeXNN]

/-! ### A word that matches a row is the word of an instruction of that row -/

/-- The instruction of `i`'s row whose operands are the fields of `w`. -/
def Instr.withFieldsOf (w : Word) : Instr → Instr
  | .cls => .cls
  | .ret => .ret
  | .jp _ => .jp (fieldNNN w)
  | .call _ => .call (fieldNNN w)
  | .seImm _ _ => .seImm (fieldX w) (fieldNN w)
  | .sneImm _ _ => .sneImm (fieldX w) (fieldNN w)
  | .seReg _ _ => .seReg (fieldX w) (fieldY w)
  | .ldImm _ _ => .ldImm (fieldX w) (fieldNN w)
  | .addImm _ _ => .addImm (fieldX w) (fieldNN w)
  | .ldReg _ _ => .ldReg (fieldX w) (fieldY w)
  | .orReg _ _ => .orReg (fieldX w) (fieldY w)
  | .andReg _ _ => .andReg (fieldX w) (fieldY w)
  | .xorReg _ _ => .xorReg (fieldX w) (fieldY w)
  | .addReg _ _ => .addReg (fieldX w) (fieldY w)
  | .sub _ _ => .sub (fieldX w) (fieldY w)
  | .shr _ _ => .shr (fieldX w) (fieldY w)
  | .subn _ _ => .subn (fieldX w) (fieldY w)
  | .shl _ _ => .shl (fieldX w) (fieldY w)
  | .sneReg _ _ => .sneReg (fieldX w) (fieldY w)
  | .ldI _ => .ldI (fieldNNN w)
  | .jpV0 _ => .jpV0 (fieldNNN w)
  | .rnd _ _ => .rnd (fieldX w) (fieldNN w)
  | .drw _ _ _ => .drw (fieldX w) (fieldY w) (fieldN w)
  | .skp _ => .skp (fieldX w)
  | .sknp _ => .sknp (fieldX w)
  | .ldVxDt _ => .ldVxDt (fieldX w)
  | .ldVxK _ => .ldVxK (fieldX w)
  | .ldDtVx _ => .ldDtVx (fieldX w)
  | .ldStVx _ => .ldStVx (fieldX w)
  | .addI _ => .addI (fieldX w)
  | .ldF _ => .ldF (fieldX w)
  | .ldB _ => .ldB (fieldX w)
  | .storeRegs _ => .storeRegs (fieldX w)
  | .loadRegs _ => .loadRegs (fieldX w)

theorem matchMask_withFieldsOf (w : Word) (i : Instr) : matchMask (i.withFieldsOf w) = matchMask i := by
  cases i <;> rfl

theorem fieldFam_of_familyMask {w : Word} {f : BitVec 4} (h : w &&& 0xF000#16 = encodeNNN f 0#12) :
    fieldFam w = f := by
  rw [and_familyMask] at h
  simpa only [fieldFam_encodeNNN] using congrArg fieldFam h

theorem fields_of_lowNibbleMask {w : Word} {f n : BitVec 4} (h : w &&& 0xF00F#16 = encodeXYN f 0#4 0#4 n) :
    fieldFam w = f ∧ fieldN w = n := by
  rw [and_lowNibbleMask] at h
  exact ⟨by simpa only [fieldFam_encodeXYN] using congrArg fieldFam h,
    by simpa only [fieldN_encodeXYN] using congrArg fieldN h⟩

theorem fields_of_lowByteMask {w : Word} {f : BitVec 4} {nn : Byte} (h : w &&& 0xF0FF#16 = encodeXNN f 0#4 nn) :
    fieldFam w = f ∧ fieldNN w = nn := by
  rw [and_lowByteMask] at h
  exact ⟨by simpa only [fieldFam_encodeXNN] using congrArg fieldFam h,
    by simpa only [fieldNN_encodeXNN] using congrArg fieldNN h⟩

theorem encodeNNN_of_familyMask {w : Word} {f : BitVec 4} (h : w &&& 0xF000#16 = encodeNNN f 0#12) :
    encodeNNN f (fieldNNN w) = w := by
  rw [← fieldFam_of_familyMask h, encodeNNN_fields]

theorem encodeXNN_of_familyMask {w : Word} {f : BitVec 4} (h : w &&& 0xF000#16 = encodeNNN f 0#12) :
    encodeXNN f (fieldX w) (fieldNN w) = w := by
  rw [← fieldFam_of_familyMask h, encodeXNN_fields]

theorem encodeXYN_of_familyMask {w : Word} {f : BitVec 4} (h : w &&& 0xF000#16 = encodeNNN f 0#12) :
    encodeXYN f (fieldX w) (fieldY w) (fieldN w) = w := by
  rw [← fieldFam_of_familyMask h, encodeXYN_fields]

theorem encodeXYN_of_lowNibbleMask {w : Word} {f n : BitVec 4} (h : w &&& 0xF00F#16 = encodeXYN f 0#4 0#4 n) :
    encodeXYN f (fieldX w) (fieldY w) n = w := by
  obtain ⟨hf, hn⟩ := fields_of_lowNibbleMask h
  rw [← hf, ← hn, encodeXYN_fields]

theorem encodeXNN_of_lowByteMask {w : Word} {f : BitVec 4} {nn : Byte} (h : w &&& 0xF0FF#16 = encodeXNN f 0#4 nn) :
    encodeXNN f (fieldX w) nn = w := by
  obtain ⟨hf, hnn⟩ := fields_of_lowByteMask h
  rw [← hf, ← hnn, encodeXNN_fields]

/-- The row's fixed bits and the word's own fields make the word: no bit is left over (R77). -/
theorem encode_withFieldsOf {w : Word} {i : Instr} (h : MatchesRow w i) : encode (i.withFieldsOf w) = w := by
  cases i with
  | cls | ret => exact (BitVec.and_allOnes.symm.trans h).symm
  | jp | call | ldI | jpV0 => exact encodeNNN_of_familyMask h
  | seImm | sneImm | ldImm | addImm | rnd => exact encodeXNN_of_familyMask h
  | drw => exact encodeXYN_of_familyMask h
  | seReg | sneReg | ldReg | orReg | andReg | xorReg | addReg | sub | shr | subn | shl =>
    exact encodeXYN_of_lowNibbleMask h
  | skp | sknp | ldVxDt | ldVxK | ldDtVx | ldStVx | addI | ldF | ldB | storeRegs | loadRegs =>
    exact encodeXNN_of_lowByteMask h

/-- A word that matches a row decodes to the instruction of that row with the word's fields. -/
theorem decode_of_matchesRow {w : Word} {i : Instr} (h : MatchesRow w i) :
    decode w = .instr (i.withFieldsOf w) := by
  have hd := decodeEncode (i.withFieldsOf w)
  rwa [encode_withFieldsOf h] at hd

theorem matchesRow_of_decode {w : Word} {i : Instr} (h : decode w = .instr i) : MatchesRow w i := by
  have hfits := decode_fits w
  rwa [h] at hfits

theorem eq_of_decode_unknown {w u : Word} (h : decode w = .unknownOpcode u) : u = w := by
  have hfits := decode_fits w
  rwa [h] at hfits

/-- Settles O2: the word matches the row of what it decodes to, and so is the word of that row with its own fields. -/
theorem encodeDecode : Obligations.EncodeDecode := by
  intro w i h
  have hrow := matchesRow_of_decode h
  have hi : i.withFieldsOf w = i := by
    rw [decode_of_matchesRow hrow] at h
    exact Decoded.instr.inj h
  exact hi ▸ encode_withFieldsOf hrow

/-- Settles O4: matching a row decides the decoding, and what is rejected can therefore match none. -/
theorem decoderIsTheOpcodeMap : Obligations.DecoderIsTheOpcodeMap := by
  refine ⟨fun w i h => ⟨_, decode_of_matchesRow h, matchMask_withFieldsOf w i⟩, fun w i => matchesRow_of_decode,
    fun w u h => ⟨eq_of_decode_unknown h, fun i hrow => ?_⟩⟩
  rw [decode_of_matchesRow hrow] at h
  cases h

/-! ### The legal words are the words of the rows (R78) -/

theorem legalWord_encode (i : Instr) : legalWord (encode i) = true := by
  cases i with
  | cls | ret => decide
  | jp | call | ldI | jpV0 => exact Laws.LegalWord.of_nnn _ _ (by decide)
  | seImm | sneImm | ldImm | addImm | rnd => exact Laws.LegalWord.of_xnn _ _ _ (by decide)
  | drw => exact Laws.LegalWord.of_xyn _ _ _ _ (by decide)
  | seReg | sneReg => exact Laws.LegalWord.of_compare _ _ _ (by decide)
  | ldReg | orReg | andReg | xorReg | addReg | sub | shr | subn | shl => exact Laws.LegalWord.of_alu _ _ _ (by decide)
  | skp | sknp => exact Laws.LegalWord.of_keySkip _ _ (by decide)
  | ldVxDt | ldVxK | ldDtVx | ldStVx | addI | ldF | ldB | storeRegs | loadRegs =>
    exact Laws.LegalWord.of_misc _ _ (by decide)

theorem family0_matches {w : Word} (h : legalFamily0 w = true) : ∃ i, MatchesRow w i := by
  have hw : w.toNat = 0x00E0 ∨ w.toNat = 0x00EE := by simpa [legalFamily0] using h
  rcases hw with hw | hw
  · exact ⟨.cls, by rw [show w = 0x00E0#16 from BitVec.eq_of_toNat_eq hw]; rfl⟩
  · exact ⟨.ret, by rw [show w = 0x00EE#16 from BitVec.eq_of_toNat_eq hw]; rfl⟩

theorem fieldN_of_legalCompare {w : Word} (h : legalCompare w = true) : fieldN w = 0x0#4 := by
  rw [legalCompare, beq_iff_eq, Laws.LegalWord.lowNibbleOf_eq] at h
  exact BitVec.eq_of_toNat_eq h

theorem matchesRow_of_lowNibble_toNat {w : Word} {i : Instr} {f : BitVec 4} {n : Nat} (hf : fieldFam w = f)
    (hn : (fieldN w).toNat = n) (hi : matchMask i = (encodeXYN f 0#4 0#4 (BitVec.ofNat 4 n), 0xF00F#16)) :
    ∃ i, MatchesRow w i :=
  ⟨i, matchesRow_of_lowNibble hf (by rw [← hn, BitVec.ofNat_toNat, BitVec.setWidth_eq]) hi⟩

theorem matchesRow_of_lowByte_toNat {w : Word} {i : Instr} {f : BitVec 4} {n : Nat} (hf : fieldFam w = f)
    (hnn : (fieldNN w).toNat = n) (hi : matchMask i = (encodeXNN f 0#4 (BitVec.ofNat 8 n), 0xF0FF#16)) :
    ∃ i, MatchesRow w i :=
  ⟨i, matchesRow_of_lowByte hf (by rw [← hnn, BitVec.ofNat_toNat, BitVec.setWidth_eq]) hi⟩

theorem alu_matches {w : Word} (hf : fieldFam w = 0x8#4) (h : legalAlu w = true) : ∃ i, MatchesRow w i := by
  have hlt := (fieldN w).isLt
  simp only [legalAlu, Laws.LegalWord.lowNibbleOf_eq, List.contains_eq_mem, List.mem_cons, List.not_mem_nil,
    or_false, Bool.not_eq_true', decide_eq_false_iff_not] at h
  have hn : (fieldN w).toNat = 0 ∨ (fieldN w).toNat = 1 ∨ (fieldN w).toNat = 2 ∨ (fieldN w).toNat = 3 ∨
      (fieldN w).toNat = 4 ∨ (fieldN w).toNat = 5 ∨ (fieldN w).toNat = 6 ∨ (fieldN w).toNat = 7 ∨
      (fieldN w).toNat = 0xE := by omega
  rcases hn with hn | hn | hn | hn | hn | hn | hn | hn | hn
  · exact matchesRow_of_lowNibble_toNat (i := .ldReg 0 0) hf hn rfl
  · exact matchesRow_of_lowNibble_toNat (i := .orReg 0 0) hf hn rfl
  · exact matchesRow_of_lowNibble_toNat (i := .andReg 0 0) hf hn rfl
  · exact matchesRow_of_lowNibble_toNat (i := .xorReg 0 0) hf hn rfl
  · exact matchesRow_of_lowNibble_toNat (i := .addReg 0 0) hf hn rfl
  · exact matchesRow_of_lowNibble_toNat (i := .sub 0 0) hf hn rfl
  · exact matchesRow_of_lowNibble_toNat (i := .shr 0 0) hf hn rfl
  · exact matchesRow_of_lowNibble_toNat (i := .subn 0 0) hf hn rfl
  · exact matchesRow_of_lowNibble_toNat (i := .shl 0 0) hf hn rfl

theorem keySkip_matches {w : Word} (hf : fieldFam w = 0xE#4) (h : legalKeySkip w = true) : ∃ i, MatchesRow w i := by
  have hnn : (fieldNN w).toNat = 0x9E ∨ (fieldNN w).toNat = 0xA1 := by
    simpa [legalKeySkip, Laws.LegalWord.lowByteOf_eq] using h
  rcases hnn with hnn | hnn
  · exact matchesRow_of_lowByte_toNat (i := .skp 0) hf hnn rfl
  · exact matchesRow_of_lowByte_toNat (i := .sknp 0) hf hnn rfl

theorem misc_matches {w : Word} (hf : fieldFam w = 0xF#4) (h : legalMisc w = true) : ∃ i, MatchesRow w i := by
  simp only [legalMisc, Laws.LegalWord.lowByteOf_eq, List.contains_iff_mem, List.mem_cons, List.not_mem_nil,
    or_false] at h
  rcases h with hnn | hnn | hnn | hnn | hnn | hnn | hnn | hnn | hnn
  · exact matchesRow_of_lowByte_toNat (i := .ldVxDt 0) hf hnn rfl
  · exact matchesRow_of_lowByte_toNat (i := .ldVxK 0) hf hnn rfl
  · exact matchesRow_of_lowByte_toNat (i := .ldDtVx 0) hf hnn rfl
  · exact matchesRow_of_lowByte_toNat (i := .ldStVx 0) hf hnn rfl
  · exact matchesRow_of_lowByte_toNat (i := .addI 0) hf hnn rfl
  · exact matchesRow_of_lowByte_toNat (i := .ldF 0) hf hnn rfl
  · exact matchesRow_of_lowByte_toNat (i := .ldB 0) hf hnn rfl
  · exact matchesRow_of_lowByte_toNat (i := .storeRegs 0) hf hnn rfl
  · exact matchesRow_of_lowByte_toNat (i := .loadRegs 0) hf hnn rfl

/-- A legal word matches a row: one row per free family, and the check of each other family finds one. -/
theorem matchesRow_of_legalWord {w : Word} (h : legalWord w = true) : ∃ i, MatchesRow w i := by
  have row {i : Instr} {f : BitVec 4} (hf : fieldFam w = f) (hi : matchMask i = (encodeNNN f 0#12, 0xF000#16)) :
      ∃ i, MatchesRow w i := ⟨i, matchesRow_of_family hf hi⟩
  rcases nibble_cases (fieldFam w) with hf | hf | hf | hf | hf | hf | hf | hf | hf | hf | hf | hf | hf | hf | hf | hf <;>
    rw [legalWord, Laws.LegalWord.familyOf_eq, hf] at h
  · exact family0_matches h
  · exact row (i := .jp 0) hf rfl
  · exact row (i := .call 0) hf rfl
  · exact row (i := .seImm 0 0) hf rfl
  · exact row (i := .sneImm 0 0) hf rfl
  · exact ⟨.seReg 0 0, matchesRow_of_lowNibble hf (fieldN_of_legalCompare h) rfl⟩
  · exact row (i := .ldImm 0 0) hf rfl
  · exact row (i := .addImm 0 0) hf rfl
  · exact alu_matches hf h
  · exact ⟨.sneReg 0 0, matchesRow_of_lowNibble hf (fieldN_of_legalCompare h) rfl⟩
  · exact row (i := .ldI 0) hf rfl
  · exact row (i := .jpV0 0) hf rfl
  · exact row (i := .rnd 0 0) hf rfl
  · exact row (i := .drw 0 0 0) hf rfl
  · exact keySkip_matches hf h
  · exact misc_matches hf h

/-- Settles O5: a legal word matches a row, so it is decoded; a decoded word is an encoding, so it is legal. -/
theorem illegalWordsAreRejected : Obligations.IllegalWordsAreRejected := by
  intro w
  constructor
  · intro hd
    refine Bool.eq_false_iff.mpr fun hlegal => ?_
    obtain ⟨i, hrow⟩ := matchesRow_of_legalWord hlegal
    rw [decode_of_matchesRow hrow] at hd
    cases hd
  · intro hlegal
    refine decode_of_no_row fun i hrow => ?_
    rw [← encode_withFieldsOf hrow, legalWord_encode] at hlegal
    cases hlegal

/-! ### The word as match and operands (R84) -/

theorem encodeNNN_or (f g : BitVec 4) (a b : BitVec 12) :
    encodeNNN f a ||| encodeNNN g b = encodeNNN (f ||| g) (a ||| b) :=
  BitVec.or_append

theorem encodeXNN_or (f g : BitVec 4) (x y : RegNo) (a b : Byte) :
    encodeXNN f x a ||| encodeXNN g y b = encodeXNN (f ||| g) (x ||| y) (a ||| b) :=
  BitVec.or_append.trans (congrArg (· ++ (a ||| b)) BitVec.or_append)

theorem encodeXYN_or (f g : BitVec 4) (x x' y y' : RegNo) (a b : BitVec 4) :
    encodeXYN f x y a ||| encodeXYN g x' y' b = encodeXYN (f ||| g) (x ||| x') (y ||| y') (a ||| b) :=
  BitVec.or_append.trans (congrArg (· ++ (a ||| b))
    (BitVec.or_append.trans (congrArg (· ++ (y ||| y')) BitVec.or_append)))

/-! An operand at its place, as a word whose other fields are 0 (R71). -/

theorem setWidth_nnn (nnn : BitVec 12) : nnn.setWidth 16 = encodeNNN 0#4 nnn := BitVec.setWidth_eq_append (by decide)

theorem setWidth_nn (nn : Byte) : nn.setWidth 16 = encodeXNN 0#4 0#4 nn := BitVec.setWidth_eq_append (by decide)

theorem shifted_x_xnn : ∀ x : RegNo, x.setWidth 16 <<< 8 = encodeXNN 0#4 x 0#8 := by decide

theorem shifted_x_xyn : ∀ x : RegNo, x.setWidth 16 <<< 8 = encodeXYN 0#4 x 0#4 0#4 := by decide

theorem shifted_y : ∀ y : RegNo, y.setWidth 16 <<< 4 = encodeXYN 0#4 0#4 y 0#4 := by decide

theorem setWidth_n : ∀ n : BitVec 4, n.setWidth 16 = encodeXYN 0#4 0#4 0#4 n := by decide

/-! Each format OR-ed together field by field. -/

theorem encodeNNN_eq_or (f : BitVec 4) (nnn : BitVec 12) : encodeNNN f nnn = encodeNNN f 0#12 ||| nnn.setWidth 16 := by
  simp [setWidth_nnn, encodeNNN_or]

theorem encodeXNN_eq_or (f : BitVec 4) (x : RegNo) (nn : Byte) :
    encodeXNN f x nn = encodeXNN f 0#4 0#8 ||| (x.setWidth 16 <<< 8 ||| nn.setWidth 16) := by
  simp [shifted_x_xnn, setWidth_nn, encodeXNN_or]

theorem encodeXNN_eq_or_x (f : BitVec 4) (x : RegNo) (nn : Byte) :
    encodeXNN f x nn = encodeXNN f 0#4 nn ||| x.setWidth 16 <<< 8 := by
  simp [shifted_x_xnn, encodeXNN_or]

theorem encodeXYN_eq_or (f : BitVec 4) (x y : RegNo) (n : BitVec 4) :
    encodeXYN f x y n =
      encodeXYN f 0#4 0#4 0#4 ||| (x.setWidth 16 <<< 8 ||| y.setWidth 16 <<< 4 ||| n.setWidth 16) := by
  rw [shifted_x_xyn, shifted_y, setWidth_n n]
  simp [encodeXYN_or]

theorem encodeXYN_eq_or_xy (f : BitVec 4) (x y : RegNo) (n : BitVec 4) :
    encodeXYN f x y n = encodeXYN f 0#4 0#4 n ||| (x.setWidth 16 <<< 8 ||| y.setWidth 16 <<< 4) := by
  simp [shifted_x_xyn, shifted_y, encodeXYN_or]

/-- Settles O3: a row's match is the encoding with its operand fields 0, and OR joins field by field. -/
theorem encodeIsMatchOrOperands : Obligations.EncodeIsMatchOrOperands := by
  intro i
  cases i with
  | cls | ret => rfl
  | jp | call | ldI | jpV0 => exact encodeNNN_eq_or _ _
  | seImm | sneImm | ldImm | addImm | rnd => exact encodeXNN_eq_or _ _ _
  | drw => exact encodeXYN_eq_or _ _ _ _
  | seReg | sneReg | ldReg | orReg | andReg | xorReg | addReg | sub | shr | subn | shl =>
    exact encodeXYN_eq_or_xy _ _ _ _
  | skp | sknp | ldVxDt | ldVxK | ldDtVx | ldStVx | addI | ldF | ldB | storeRegs | loadRegs =>
    exact encodeXNN_eq_or_x _ _ _

/-- Settles O6, each word decoded as it stands. -/
theorem decodeSanity : Obligations.DecodeSanity := by
  unfold Obligations.DecodeSanity
  decide

end Sys2Proof

/-! SUPPORT. What an instruction leaves unchanged (10_state.md section 1, R12): one frame lemma per shape of update, then one
over `exec`, from which the statements per instruction take their frames. -/

namespace Sys2Proof.Claims

open Sys2Proof.Machine

/-! ### Reading a frame -/

theorem KeptBut.mono {p q : RegNo → Prop} {parts more : List Part} {s t : State} (h : KeptBut p parts s t)
    (hpq : ∀ r, p r → q r) (hparts : parts ⊆ more) : KeptBut q more s t := by
  obtain ⟨hreg, hpc, hindex, hmem, hdisp, hsp, hstack, hdt, hst, hrnd, hrest⟩ := h
  exact ⟨fun r hr => hreg r (mt (hpq r) hr), fun hp => hpc (mt (@hparts _) hp), fun hp => hindex (mt (@hparts _) hp),
    fun hp => hmem (mt (@hparts _) hp), fun hp => hdisp (mt (@hparts _) hp), fun hp => hsp (mt (@hparts _) hp),
    fun hp => hstack (mt (@hparts _) hp), fun hp => hdt (mt (@hparts _) hp), fun hp => hst (mt (@hparts _) hp),
    fun hp => hrnd (mt (@hparts _) hp), hrest⟩

theorem KeptBut.mem_read {p : RegNo → Prop} {parts : List Part} {s t : State} (h : KeptBut p parts s t)
    (hp : Part.mem ∉ parts) (a : Nat) : t.mem.read a = s.mem.read a := by
  obtain ⟨-, -, -, hmem, -⟩ := h
  exact hmem hp a

theorem KeptBut.stack_eq {p : RegNo → Prop} {parts : List Part} {s t : State} (h : KeptBut p parts s t)
    (hp : Part.stack ∉ parts) : t.stack = s.stack := by
  obtain ⟨-, -, -, -, -, -, hstack, -⟩ := h
  exact hstack hp

theorem KeptBut.sp_eq {p : RegNo → Prop} {parts : List Part} {s t : State} (h : KeptBut p parts s t)
    (hp : Part.sp ∉ parts) : t.sp = s.sp := by
  obtain ⟨-, -, -, -, -, hsp, -⟩ := h
  exact hsp hp

theorem KeptBut.dt_eq {p : RegNo → Prop} {parts : List Part} {s t : State} (h : KeptBut p parts s t)
    (hp : Part.dt ∉ parts) : t.dt = s.dt := by
  obtain ⟨-, -, -, -, -, -, -, hdt, -⟩ := h
  exact hdt hp

theorem KeptBut.st_eq {p : RegNo → Prop} {parts : List Part} {s t : State} (h : KeptBut p parts s t)
    (hp : Part.st ∉ parts) : t.st = s.st := by
  obtain ⟨-, -, -, -, -, -, -, -, hst, -⟩ := h
  exact hst hp

theorem KeptBut.err_eq {p : RegNo → Prop} {parts : List Part} {s t : State} (h : KeptBut p parts s t) :
    t.err = s.err := by
  obtain ⟨-, -, -, -, -, -, -, -, -, -, -, -, herr, -⟩ := h
  exact herr

theorem KeptBut.reg_eq {p : RegNo → Prop} {parts : List Part} {s t : State} (h : KeptBut p parts s t)
    {r : RegNo} (hr : ¬ p r) : t.reg r = s.reg r := by
  obtain ⟨hreg, -⟩ := h
  exact hreg r hr

end Sys2Proof.Claims

namespace Sys2Proof.Machine

open Sys2Proof.Claims

/-! ### One frame per shape of update -/

theorem keptBut_setReg (s : State) (x : RegNo) (b : Byte) : KeptBut (· = x) [] s (s.setReg x b) :=
  ⟨fun r hr => by rw [State.reg_setReg, if_neg (Ne.symm hr)], by simp⟩

theorem keptBut_setWithFlag (s : State) (x : RegNo) (b f : Byte) :
    KeptBut (fun r => r = x ∨ r = 0xF#4) [] s (s.setWithFlag x b f) := by
  refine ⟨fun r hr => ?_, by simp [State.setWithFlag]⟩
  obtain ⟨hx, hf⟩ := not_or.mp hr
  rw [State.setWithFlag_reg, if_neg (show ¬ r = flagReg from hf), if_neg hx]

theorem keptBut_rnd (s : State) (x : RegNo) (b : Byte) : KeptBut (· = x) [.rnd] s (s.afterRnd.setReg x b) :=
  ⟨fun r hr => by rw [State.reg_setReg, if_neg (Ne.symm hr), State.afterRnd_reg], by simp⟩

theorem keptBut_disp (s : State) (d : Display) : KeptBut noReg [.disp] s { s with disp := d } :=
  ⟨fun _ _ => rfl, by simp⟩

theorem keptBut_draw (s : State) (d : Display) (f : Byte) :
    KeptBut (· = 0xF#4) [.disp] s (({ s with disp := d } : State).setReg flagReg f) :=
  ⟨fun r hr => by rw [State.reg_setReg, if_neg (show ¬ flagReg = r from Ne.symm hr)]; rfl, by simp⟩

theorem keptBut_pc (s : State) (w : Word) : KeptBut noReg [.pc] s { s with pc := w } :=
  ⟨fun _ _ => rfl, by simp⟩

theorem keptBut_skipIf (s : State) (c : Bool) : KeptBut noReg [.pc] s (skipIf c s) := by
  rw [skipIf_eq]
  exact keptBut_pc s _

theorem keptBut_index (s : State) (w : Word) : KeptBut noReg [.index] s { s with index := w } :=
  ⟨fun _ _ => rfl, by simp⟩

theorem keptBut_mem (s : State) (m : Memory) : KeptBut noReg [.mem] s { s with mem := m } :=
  ⟨fun _ _ => rfl, by simp⟩

theorem keptBut_dt (s : State) (b : Byte) : KeptBut noReg [.dt] s { s with dt := b } :=
  ⟨fun _ _ => rfl, by simp⟩

theorem keptBut_st (s : State) (b : Byte) : KeptBut noReg [.st] s { s with st := b } :=
  ⟨fun _ _ => rfl, by simp⟩

theorem keptBut_pop (s : State) (w : Word) (n : Fin 17) : KeptBut noReg [.pc, .sp] s { s with pc := w, sp := n } :=
  ⟨fun _ _ => rfl, by simp⟩

theorem keptBut_push (s : State) (w : Word) (n : Fin 17) (k : Vector Word 16) :
    KeptBut noReg [.pc, .sp, .stack] s { s with pc := w, sp := n, stack := k } :=
  ⟨fun _ _ => rfl, by simp⟩

/-- A load changes the registers up to its operand (43_index_memory.md R146). -/
theorem keptBut_load (s : State) (x : RegNo) :
    KeptBut (fun r => r.toNat ≤ x.toNat) [] s (s.setRegsFrom 0 (s.mem.readList s.index.toNat (x.toNat + 1))) := by
  refine ⟨fun r hr => by rw [reg_after_load, if_neg hr], ?_⟩
  rw [State.setRegsFrom_frame]
  simp

/-! ### The instructions with an error of their own, where the table gives them none -/

/-- A row of the table gives no error where its condition fails. -/
theorem not_of_noError {c : Prop} [Decidable c] {e : ErrorKind} (h : (if c then some e else none) = none) : ¬ c := by
  intro hc
  rw [if_pos hc] at h
  cases h

theorem sp_ne_of_noError {s : State} (h : instrError .ret s = none) : s.sp.val ≠ 0 := not_of_noError h

theorem sp_lt_of_noError {s : State} {nnn : BitVec 12} (h : instrError (.call nnn) s = none) : s.sp.val < 16 := by
  have hle := s.sp.isLt
  have hne := not_of_noError h
  omega

theorem ldB_inBounds_of_noError {s : State} {x : RegNo} (h : instrError (.ldB x) s = none) :
    s.index.toNat + 3 ≤ 4096 := Nat.le_of_not_gt (not_of_noError h)

theorem storeRegs_inBounds_of_noError {s : State} {x : RegNo} (h : instrError (.storeRegs x) s = none) :
    s.index.toNat + (x.toNat + 1) ≤ 4096 := Nat.le_of_not_gt (not_of_noError h)

theorem loadRegs_inBounds_of_noError {s : State} {x : RegNo} (h : instrError (.loadRegs x) s = none) :
    s.index.toNat + (x.toNat + 1) ≤ 4096 := Nat.le_of_not_gt (not_of_noError h)

/-- An instruction that leaves a running core running raised no error. -/
theorem instrError_of_running {i : Instr} {s t : State} (hs : s.halt = false) (h : exec i s = .next t)
    (ht : t.halt = false) : instrError i s = none := by
  obtain ⟨u, hu, hshows⟩ := exec_showsError hs i
  rw [h] at hu
  cases hu
  cases he : instrError i s with
  | none => rfl
  | some e =>
    rw [he] at hshows
    obtain ⟨hhalt, -⟩ := hshows
    exact absurd hhalt (ne_true_of_eq_false ht)

/-! ### The frame of every instruction -/

theorem exec_ldVxK_keptBut {x : RegNo} {s t : State} (h : exec (.ldVxK x) s = .next t) :
    KeptBut (fun r => r = x ∧ s.key ≠ 0) [.pc] s t := by
  by_cases hk : s.key = 0
  · rw [exec_ldVxK_of_none hk] at h
    cases h
    exact (keptBut_pc s _).mono (fun _ hr => hr.elim) (List.Subset.refl _)
  · rw [exec_ldVxK_of_some hk] at h
    cases h
    exact (keptBut_setReg s x _).mono (fun _ hr => ⟨hr, hk⟩) (List.nil_subset _)

/-- An instruction without an error writes only the registers and the parts the tables list for it. -/
theorem exec_keptBut {i : Instr} {s t : State} (h : exec i s = .next t) (he : instrError i s = none) :
    KeptBut (writesReg i s) (partsWritten i) s t := by
  cases i with
  | ret =>
    rw [exec_ret_of_ne (sp_ne_of_noError he)] at h
    cases h
    exact keptBut_pop s _ _
  | call nnn =>
    rw [exec_call_of_lt (sp_lt_of_noError he)] at h
    cases h
    exact keptBut_push s _ _ _
  | ldB x =>
    rw [exec_ldB_of_inBounds (ldB_inBounds_of_noError he)] at h
    cases h
    exact keptBut_mem s _
  | storeRegs x =>
    rw [exec_storeRegs_of_inBounds (storeRegs_inBounds_of_noError he)] at h
    cases h
    exact keptBut_mem s _
  | loadRegs x =>
    rw [exec_loadRegs_of_inBounds (loadRegs_inBounds_of_noError he)] at h
    cases h
    exact keptBut_load s x
  | ldVxK x => exact exec_ldVxK_keptBut h
  | cls => cases h; exact keptBut_disp s _
  | drw => cases h; exact keptBut_draw s _ _
  | jp | jpV0 => cases h; exact keptBut_pc s _
  | seImm | sneImm | seReg | sneReg | skp | sknp => cases h; exact keptBut_skipIf s _
  | ldImm | addImm | ldReg | orReg | andReg | xorReg | ldVxDt => cases h; exact keptBut_setReg s _ _
  | addReg | sub | shr | subn | shl => cases h; exact keptBut_setWithFlag s _ _ _
  | rnd => cases h; exact keptBut_rnd s _ _
  | ldI | addI | ldF => cases h; exact keptBut_index s _
  | ldDtVx => cases h; exact keptBut_dt s _
  | ldStVx => cases h; exact keptBut_st s _

/-! ### Memory byte by byte and the call stack entry by entry -/

theorem memKeptOutside_writeList (s : State) (bs : List Byte) :
    MemKeptOutside s.index.toNat bs.length s { s with mem := s.mem.writeList s.index.toNat bs } :=
  fun _ ha => Memory.read_writeList_of_outside s.mem bs ha

theorem exec_memKeptOutside {i : Instr} {s t : State} (h : exec i s = .next t) (he : instrError i s = none) :
    MemKeptOutside s.index.toNat (bytesStored i) s t := by
  cases i with
  | ldB x =>
    rw [exec_ldB_of_inBounds (ldB_inBounds_of_noError he)] at h
    cases h
    exact memKeptOutside_writeList s (bcdDigits (s.reg x))
  | storeRegs x =>
    rw [exec_storeRegs_of_inBounds (storeRegs_inBounds_of_noError he)] at h
    cases h
    have hout := memKeptOutside_writeList s (s.regsUpTo x)
    rwa [State.regsUpTo_length] at hout
  | _ => exact fun a _ => (exec_keptBut h he).mem_read (by simp [partsWritten]) a

theorem exec_stack_getElem? {i : Instr} {s t : State} (h : exec i s = .next t) (he : instrError i s = none) {k : Nat}
    (hk : ¬ stackEntryStored i s k) : t.stack[k]? = s.stack[k]? := by
  cases i with
  | call nnn =>
    rw [exec_call_of_lt (sp_lt_of_noError he)] at h
    cases h
    exact Vector.getElem?_set_ne (sp_lt_of_noError he) (Ne.symm hk)
  | _ => rw [(exec_keptBut h he).stack_eq (by simp [partsWritten])]

/-- Settles O16: an instruction that leaves the core running raised no error, and then keeps its frame. -/
theorem onlyItsOwnStateIsWritten : Obligations.OnlyItsOwnStateIsWritten := by
  intro i s t hs h ht
  have he := instrError_of_running hs h ht
  exact ⟨exec_keptBut h he, exec_memKeptOutside h he, fun k => exec_stack_getElem? h he⟩

end Sys2Proof.Machine

/-! SUPPORT. The statements about one instruction (41_control_flow.md to 45_timers_keys.md), each from the instruction's
equation and the frame of its shape of update. -/

namespace Sys2Proof.Machine

open Sys2Proof.Claims

/-! ### Control flow (41_control_flow.md) -/

/-- Settles O33, by RET's two equations. -/
theorem returnPops : Obligations.ReturnPops := by
  refine ⟨fun s hsp => ⟨_, exec_ret_of_ne hsp, rfl, Vector.getElem?_eq_getElem _, rfl, keptBut_pop s _ _⟩,
    fun s hsp => ?_⟩
  exact ⟨_, exec_ret_of_empty hsp, errorTaken_raiseError _ s⟩

/-- Settles O34, by CALL's two equations. -/
theorem callPushes : Obligations.CallPushes := by
  refine ⟨fun nnn s hsp => ⟨_, exec_call_of_lt hsp nnn, rfl, Vector.getElem?_set_self hsp,
    fun k hk => Vector.getElem?_set_ne hsp (Ne.symm hk), zextAddr_toNat nnn, keptBut_push s _ _ _⟩, fun nnn s hsp => ?_⟩
  exact ⟨_, exec_call_of_full hsp nnn, errorTaken_raiseError _ s⟩

/-- Settles O35: neither target wraps. -/
theorem jumpsSetPc : Obligations.JumpsSetPc :=
  ⟨fun nnn s => ⟨_, rfl, zextAddr_toNat nnn, keptBut_pc s _⟩,
    fun nnn s => ⟨_, rfl, offsetTarget_toNat nnn s, keptBut_pc s _⟩⟩

/-- The PC after a skip, for a condition written as a proposition. -/
theorem skipIf_pc {c : Bool} {p : Prop} [Decidable p] (h : c = true ↔ p) (s : State) :
    (skipIf c s).pc = if p then s.pc + 2 else s.pc := by
  rw [skipIf_eq]
  exact ite_congr (propext h) (fun _ => rfl) fun _ => rfl

/-- Settles O36: each condition is the skip's own test. -/
theorem skipsCompare : Obligations.SkipsCompare :=
  ⟨fun _ _ s => ⟨_, rfl, skipIf_pc beq_iff_eq s, keptBut_skipIf s _⟩,
    fun _ _ s => ⟨_, rfl, skipIf_pc bne_iff_ne s, keptBut_skipIf s _⟩,
    fun _ _ s => ⟨_, rfl, skipIf_pc beq_iff_eq s, keptBut_skipIf s _⟩,
    fun _ _ s => ⟨_, rfl, skipIf_pc bne_iff_ne s, keptBut_skipIf s _⟩⟩

/-! ### Registers and arithmetic (42_alu.md) -/

theorem State.reg_setReg_self (s : State) (x : RegNo) (b : Byte) : (s.setReg x b).reg x = b := by
  rw [State.reg_setReg, if_pos rfl]

/-- Settles O37: both write `Vx` alone, VF or not. -/
theorem immediateLoadAndAdd : Obligations.ImmediateLoadAndAdd := by
  refine ⟨fun x nn s => ⟨_, rfl, s.reg_setReg_self x nn, keptBut_setReg s x _⟩,
    fun x nn s => ⟨_, rfl, ?_, keptBut_setReg s x _⟩⟩
  rw [State.reg_setReg_self, BitVec.toNat_add]

/-- Settles O38: the operations on bytes are the operations on their bits. -/
theorem registerLogic : Obligations.RegisterLogic := by
  refine ⟨fun x y s => ⟨_, rfl, s.reg_setReg_self x _, keptBut_setReg s x _⟩,
    fun x y s => ⟨_, rfl, fun k => ?_, keptBut_setReg s x _⟩,
    fun x y s => ⟨_, rfl, fun k => ?_, keptBut_setReg s x _⟩, fun x y s => ⟨_, rfl, fun k => ?_, keptBut_setReg s x _⟩⟩
  · rw [State.reg_setReg_self, BitVec.getLsbD_or]
  · rw [State.reg_setReg_self, BitVec.getLsbD_and]
  · rw [State.reg_setReg_self, BitVec.getLsbD_xor]

/-- VF after a flag-writing instruction is its flag, whatever its destination (R121). -/
theorem State.setWithFlag_vf (s : State) (x : RegNo) (b f : Byte) : (s.setWithFlag x b f).reg 0xF#4 = f := by
  rw [State.setWithFlag_reg, if_pos (show 0xF#4 = flagReg from rfl)]

/-- `Vx` after a flag-writing instruction is its result, unless `Vx` is VF. -/
theorem State.setWithFlag_self {x : RegNo} (hx : x ≠ 0xF#4) (s : State) (b f : Byte) :
    (s.setWithFlag x b f).reg x = b := by
  rw [State.setWithFlag_reg, if_neg (show ¬ x = flagReg from hx), if_pos rfl]

theorem flagByte_decide (p : Prop) [Decidable p] : flagByte (decide p) = if p then 1 else 0 := by
  rw [flagByte_eq]
  exact ite_congr (propext decide_eq_true_iff) (fun _ => rfl) fun _ => rfl

theorem carryFlag_eq (a b : Byte) : carryFlag a b = if a.toNat + b.toNat > 255 then 1 else 0 := flagByte_decide _

theorem greaterFlag_eq (a b : Byte) : greaterFlag a b = if a.toNat > b.toNat then 1 else 0 := flagByte_decide _

theorem flagByte_toNat (c : Bool) : (flagByte c).toNat = c.toNat := by cases c <;> rfl

/-- Bit `k` of a byte as a number. -/
theorem flagByte_getLsbD_toNat (a : Byte) (k : Nat) : (flagByte (a.getLsbD k)).toNat = a.toNat / 2 ^ k % 2 := by
  rw [flagByte_toNat, ← BitVec.testBit_toNat, Nat.toNat_testBit]

theorem lowBitFlag_toNat (a : Byte) : (lowBitFlag a).toNat = a.toNat % 2 := by
  rw [lowBitFlag, flagByte_getLsbD_toNat, Nat.pow_zero, Nat.div_one]

theorem highBitFlag_toNat (a : Byte) : (highBitFlag a).toNat = a.toNat / 128 := by
  have ha := a.isLt
  rw [highBitFlag, flagByte_getLsbD_toNat]
  omega

theorem byte_sub_toNat (a b : Byte) : (a - b).toNat = (a.toNat + 256 - b.toNat) % 256 := by
  have := b.isLt
  rw [BitVec.toNat_sub]
  omega

theorem byte_shiftLeft_one_toNat (a : Byte) : (a <<< 1).toNat = a.toNat * 2 % 256 := by
  rw [BitVec.toNat_shiftLeft, Nat.shiftLeft_eq]

theorem byte_shiftRight_one_toNat (a : Byte) : (a >>> 1).toNat = a.toNat / 2 := by
  rw [BitVec.toNat_ushiftRight, Nat.shiftRight_eq_div_pow]

/-- Settles O39: the flag is written last. -/
theorem addRegistersCarries : Obligations.AddRegistersCarries := by
  refine fun x y s => ⟨_, rfl, ?_, fun hx => ?_, keptBut_setWithFlag s x _ _⟩
  · rw [State.setWithFlag_vf, carryFlag_eq]
  · rw [State.setWithFlag_self hx, BitVec.toNat_add]

/-- Settles O40: the flag compares the minuend with the subtrahend, in the order of the instruction. -/
theorem subtractsCompareStrictly : Obligations.SubtractsCompareStrictly := by
  refine ⟨fun x y s => ⟨_, rfl, ?_, fun hx => ?_, keptBut_setWithFlag s x _ _⟩,
    fun x y s => ⟨_, rfl, ?_, fun hx => ?_, keptBut_setWithFlag s x _ _⟩⟩
  · rw [State.setWithFlag_vf, greaterFlag_eq]
  · rw [State.setWithFlag_self hx, byte_sub_toNat]
  · rw [State.setWithFlag_vf, greaterFlag_eq]
  · rw [State.setWithFlag_self hx, byte_sub_toNat]

/-- Settles O41: no meaning of a shift mentions `y`. -/
theorem shiftsByOne : Obligations.ShiftsByOne := by
  refine ⟨fun x y s => ⟨_, rfl, rfl, ?_, fun hx => ?_, keptBut_setWithFlag s x _ _⟩,
    fun x y s => ⟨_, rfl, rfl, ?_, fun hx => ?_, keptBut_setWithFlag s x _ _⟩⟩
  · rw [State.setWithFlag_vf, lowBitFlag_toNat]
  · rw [State.setWithFlag_self hx, byte_shiftRight_one_toNat]
  · rw [State.setWithFlag_vf, highBitFlag_toNat]
  · rw [State.setWithFlag_self hx, byte_shiftLeft_one_toNat]

/-- The byte of a draw is the first the host gave. -/
theorem State.rndByte_of_head {s : State} {c : Byte} (h : s.rndIn.head? = some c) : s.rndByte = c := by
  obtain ⟨l, hl⟩ := List.head?_eq_some_iff.mp h
  rw [State.rndByte, hl]

/-- Settles O42: the byte is `State.rndByte`, which is the host's where there is one. -/
theorem randomIsMasked : Obligations.RandomIsMasked :=
  ⟨fun x _ s => ⟨_, s.rndByte, rfl, State.reg_setReg_self _ x _, fun _ => State.rndByte_of_head, keptBut_rnd s x _⟩,
    fun x _ _ _ => ⟨_, rfl, State.reg_setReg_self _ x _⟩⟩

/-! ### Index register and memory (43_index_memory.md) -/

/-- Settles O43: widening an address or a byte keeps its value, and the sum wraps at 16 bits. -/
theorem indexRegisterWrites : Obligations.IndexRegisterWrites := by
  refine ⟨fun nnn s => ⟨_, rfl, zextAddr_toNat nnn, keptBut_index s _⟩, fun x s => ⟨_, rfl, ?_, keptBut_index s _⟩,
    fun x s => ⟨_, rfl, zextByte_toNat _, keptBut_index s _⟩⟩
  rw [BitVec.toNat_add, zextByte_toNat]

/-- Byte `k` of a list of bytes stored inside memory reads back at its address. -/
theorem Memory.read_writeList_at {m : Memory} (hm : m.wf) {a k : Nat} {bs : List Byte} (h : a + bs.length ≤ 4096)
    (hk : k < bs.length) : (m.writeList a bs).read (a + k) = bs.getD k 0 := by
  rw [Memory.read_writeList hm a bs h, if_pos (by omega), Nat.add_sub_cancel_left]

/-- The three digits as numbers; none exceeds 9, so none is cut (R143). -/
theorem bcdDigits_toNat (b : Byte) :
    ((bcdDigits b).getD 0 0).toNat = b.toNat / 100 ∧ ((bcdDigits b).getD 1 0).toNat = b.toNat / 10 % 10 ∧
      ((bcdDigits b).getD 2 0).toNat = b.toNat % 10 := by
  have hb := b.isLt
  simp only [bcdDigits, List.getD_cons_zero, List.getD_cons_succ, BitVec.toNat_ofNat]
  omega

/-- Settles O44: the three digits are the bytes stored. -/
theorem storeBcdWritesDigits : Obligations.StoreBcdWritesDigits := by
  refine ⟨fun x s hm hle => ?_, fun x s hgt => ⟨_, exec_ldB_of_outside (by omega) x, errorTaken_raiseError _ s⟩⟩
  obtain ⟨hundreds, tens, ones⟩ := bcdDigits_toNat (s.reg x)
  have hread {k : Nat} (hk : k < 3) := Memory.read_writeList_at hm (bs := bcdDigits (s.reg x)) hle hk
  refine ⟨_, exec_ldB_of_inBounds hle x, ?_, ?_, ?_, memKeptOutside_writeList s (bcdDigits (s.reg x)), keptBut_mem s _⟩
  · rw [← hundreds, ← hread (k := 0) (by decide), Nat.add_zero]
  · rw [← tens, ← hread (k := 1) (by decide)]
  · rw [← ones, ← hread (k := 2) (by decide)]

/-- Byte `r` of the bytes LD [I],Vx stores is `Vr`. -/
theorem State.regsUpTo_getD_reg (s : State) {x r : RegNo} (h : r.toNat ≤ x.toNat) :
    (s.regsUpTo x).getD r.toNat 0 = s.reg r := by
  rw [State.regsUpTo_getD s x r.toNat h, BitVec.ofNat_toNat, BitVec.setWidth_eq]

/-- What LD [I],Vx stores reads back. -/
theorem read_after_store {s : State} {x r : RegNo} (hm : s.mem.wf) (hle : s.index.toNat + (x.toNat + 1) ≤ 4096)
    (hr : r.toNat ≤ x.toNat) :
    (s.mem.writeList s.index.toNat (s.regsUpTo x)).read (s.index.toNat + r.toNat) = s.reg r := by
  have hlen := s.regsUpTo_length x
  rw [Memory.read_writeList_at hm (by omega) (by omega), State.regsUpTo_getD_reg s hr]

/-- Settles O45: the registers are the bytes stored. -/
theorem storeRegistersWritesMemory : Obligations.StoreRegistersWritesMemory := by
  refine ⟨fun x s hm hle => ⟨_, exec_storeRegs_of_inBounds (by omega), fun r hr => read_after_store hm (by omega) hr, ?_,
    keptBut_mem s _⟩, fun x s hgt => ⟨_, exec_storeRegs_of_outside (by omega), errorTaken_raiseError _ s⟩⟩
  have hout := memKeptOutside_writeList s (s.regsUpTo x)
  rwa [State.regsUpTo_length] at hout

/-- Settles O46: `reg_after_load` says every register. -/
theorem loadRegistersReadsMemory : Obligations.LoadRegistersReadsMemory := by
  refine ⟨fun x s hle => ⟨_, exec_loadRegs_of_inBounds (by omega), fun r hr => ?_, keptBut_load s x⟩, fun x s hgt => ?_⟩
  · rw [reg_after_load, if_pos hr]
  · exact ⟨_, exec_loadRegs_of_outside (by omega), errorTaken_raiseError _ s⟩

/-! ### Display, keys and timers (44_display.md, 45_timers_keys.md) -/

/-- Settles O47: the cleared display has no pixel on. -/
theorem clearTurnsEveryPixelOff : Obligations.ClearTurnsEveryPixelOff :=
  fun s => ⟨_, rfl, Display.pixel_clear, keptBut_disp s _⟩

theorem keySelect_toNat (b : Byte) : (keySelect b).toNat = b.toNat % 16 := by
  simp [keySelect, BitVec.extractLsb'_toNat]

theorem keyDown_eq (x : RegNo) (s : State) : keyDown x s = s.key.getLsbD ((s.reg x).toNat % 16) := by
  rw [keyDown, keySelect_toNat]

/-- Settles O49: the low four bits are the remainder by 16. -/
theorem keySkipsTestTheLatch : Obligations.KeySkipsTestTheLatch := by
  refine ⟨fun x s => ⟨_, rfl, skipIf_pc ?_ s, keptBut_skipIf s _⟩,
    fun x s => ⟨_, rfl, skipIf_pc ?_ s, keptBut_skipIf s _⟩⟩
  · rw [keyDown_eq]
  · rw [keyDown_eq, Bool.not_eq_true']

/-- Settles O50: each moves one byte, and no timer ticks before the end of the STEP. -/
theorem timerMoves : Obligations.TimerMoves :=
  ⟨fun x s => ⟨_, rfl, s.reg_setReg_self x _, keptBut_setReg s x _⟩, fun _ s => ⟨_, rfl, rfl, keptBut_dt s _⟩,
    fun _ s => ⟨_, rfl, rfl, keptBut_st s _⟩⟩

/-- The reported key is one that is down. -/
theorem keyPick_down {key : BitVec 16} (h : key ≠ 0) :
    (keyPick key).toNat < 16 ∧ key.getLsbD (keyPick key).toNat = true := by
  obtain ⟨k, hk, hpick⟩ := keyPick_spec h
  obtain ⟨hlt, hdown⟩ := mem_pressedKeys.mp hk
  rw [hpick, BitVec.toNat_ofNat, Nat.mod_eq_of_lt (by omega)]
  exact ⟨hlt, hdown⟩

/-- Settles O51, by the two equations of LD Vx,K. -/
theorem waitForKeyPolls : Obligations.WaitForKeyPolls := by
  refine ⟨fun x s hk => ⟨_, exec_ldVxK_of_none hk x, rfl, keptBut_pc s _⟩, fun x s hk => ?_⟩
  obtain ⟨hlt, hdown⟩ := keyPick_down hk
  refine ⟨_, exec_ldVxK_of_some hk x, ?_, ?_, keptBut_setReg s x _⟩
  · rwa [State.reg_setReg_self]
  · rwa [State.reg_setReg_self]

/-- A latch with exactly one key down. -/
theorem oneKey_getLsbD (k : BitVec 4) (j : Nat) : (1#16 <<< k.toNat).getLsbD j = decide (j = k.toNat) := by
  have hk := k.isLt
  rw [BitVec.getLsbD_shiftLeft, BitVec.getLsbD_one, Bool.eq_iff_iff]
  simp only [Bool.and_eq_true, Bool.not_eq_true', decide_eq_true_eq, decide_eq_false_iff_not]
  omega

/-- Settles O52: OR and AND with the one flag touch that flag only. -/
theorem keyWriteSetsOneFlag : Obligations.KeyWriteSetsOneFlag := by
  refine fun k down s => ⟨_, rfl, fun j => ?_, rfl⟩
  cases down with
  | true =>
    show (s.key ||| 1#16 <<< k.toNat).getLsbD j = _
    rw [BitVec.getLsbD_or, oneKey_getLsbD]
    by_cases hj : j = k.toNat <;> simp [hj]
  | false =>
    show (s.key &&& ~~~(1#16 <<< k.toNat)).getLsbD j = _
    rw [BitVec.getLsbD_and, BitVec.getLsbD_not, oneKey_getLsbD]
    by_cases hj : j = k.toNat
    · simp [hj]
    · simpa [hj] using BitVec.lt_of_getLsbD

end Sys2Proof.Machine

/-! SUPPORT. STEP as a whole, and the invariant every STEP and every move of the host keeps (10_state.md R16,
60_exceptions.md R176). -/

namespace Sys2Proof.Machine

open Sys2Proof.Claims

/-! ### STEP -/

/-- Settles O7: the tick is `timerTick`, left out where the instruction halted the core. -/
theorem stepRunsTheDecodedInstruction : Obligations.StepRunsTheDecodedInstruction := by
  intro s t i hs hpc hd hexec
  rw [step_of_decode_opcodeAt hs (by omega) hd]
  exact congrArg finishStep hexec

/-- The bytes of an instruction at `PC` decode to it. -/
theorem decode_opcodeAt_of_bytes {s : State} {i : Instr}
    (h : [s.mem.read s.pc.toNat, s.mem.read (s.pc.toNat + 1)] = encodeBytes i) : decode (opcodeAt s) = .instr i := by
  obtain ⟨hhi, hlo⟩ : s.mem.read s.pc.toNat = opcodeHi (encode i) ∧
      s.mem.read (s.pc.toNat + 1) = opcodeLo (encode i) := by
    simpa [encodeBytes] using h
  rw [opcodeAt, hhi, hlo, opcodeOfBytes_hi_lo]
  exact decodeEncode i

/-- Settles O8: the two bytes make the instruction's word, and decoding gives it back. -/
theorem stepRunsEncodedBytes : Obligations.StepRunsEncodedBytes := by
  intro s i hs hpc hbytes
  obtain ⟨t, ht, -⟩ := exec_showsError (s := advancePc s) hs i
  refine ⟨t, ht, ?_⟩
  rw [step_of_decode_opcodeAt hs (by omega) (decode_opcodeAt_of_bytes hbytes), ht, finishStep]

/-- Settles O11: phase 0 of STEP ends it. -/
theorem haltedStepChangesNothing : Obligations.HaltedStepChangesNothing := fun _ => step_of_halted

/-- Settles O13: a halted core answers itself, a running one what the table of errors describes. -/
theorem stepIsTotal : Obligations.StepIsTotal := by
  intro s
  cases hs : s.halt with
  | true => exact ⟨s, step_of_halted hs⟩
  | false =>
    obtain ⟨t, ht, -⟩ := step_showsError hs
    exact ⟨t, ht⟩

/-- Settles O32: INIT of no byte writes no byte, and the word 0x0000 it leaves at 0x200 is no instruction. -/
theorem resetRunsIntoAnIllegalWord : Obligations.ResetRunsIntoAnIllegalWord := by
  have hop : opcodeAt State.reset = 0x0000#16 := by decide
  have hd : decode (opcodeAt State.reset) = .unknownOpcode 0x0000#16 := by rw [hop]; rfl
  have hstep := step_of_unknown (s := State.reset) rfl (fetch_eq_opcodeAt (by decide)) hd
  exact ⟨rfl, _, hstep, errorTaken_raiseUnknownOpcode _ _, raiseUnknownOpcode_errOpcode _ _⟩

/-! ### Memory stays canonical -/

theorem storeAtIndex_mem_wf {s : State} (hm : s.mem.wf) (bs : List Byte) : (storeAtIndex bs s).mem.wf := by
  unfold storeAtIndex
  split
  · exact Memory.writeList_wf hm _ bs
  · exact raiseError_mem_wf _ s

theorem loadAtIndex_mem_wf {s : State} (hm : s.mem.wf) (n : Nat) : (loadAtIndex n s).mem.wf := by
  unfold loadAtIndex
  split
  · rw [State.setRegsFrom_frame]; exact hm
  · exact raiseError_mem_wf _ s

theorem pushThen_mem_wf {s : State} (hm : s.mem.wf) (w : Word) {k : State → State} (hk : ∀ t, (k t).mem = t.mem) :
    (pushThen w k s).mem.wf := by
  unfold pushThen
  split
  · rw [hk]; exact hm
  · exact raiseError_mem_wf _ s

theorem popThen_mem_wf {s : State} (hm : s.mem.wf) {k : Word → State → State} (hk : ∀ w t, (k w t).mem = t.mem) :
    (popThen k s).mem.wf := by
  unfold popThen
  split
  · exact raiseError_mem_wf _ s
  · rw [hk]; exact hm

theorem skipIf_mem (c : Bool) (s : State) : (skipIf c s).mem = s.mem := by
  rw [skipIf_eq]

theorem exec_ldVxK_mem {x : RegNo} {s t : State} (h : exec (.ldVxK x) s = .next t) : t.mem = s.mem := by
  by_cases hk : s.key = 0
  · rw [exec_ldVxK_of_none hk] at h; cases h; rfl
  · rw [exec_ldVxK_of_some hk] at h; cases h; rfl

/-- Every instruction keeps memory canonical, its errors included. -/
theorem exec_mem_wf {i : Instr} {s t : State} (hm : s.mem.wf) (h : exec i s = .next t) : t.mem.wf := by
  cases i with
  | ldVxK x => rw [exec_ldVxK_mem h]; exact hm
  | ret => cases h; exact popThen_mem_wf hm fun _ _ => rfl
  | call nnn => cases h; exact pushThen_mem_wf hm s.pc fun _ => rfl
  | seImm | sneImm | seReg | sneReg | skp | sknp => cases h; rw [skipIf_mem]; exact hm
  | ldB | storeRegs => cases h; exact storeAtIndex_mem_wf hm _
  | loadRegs x => cases h; exact loadAtIndex_mem_wf hm _
  | _ => cases h; exact hm

/-! ### The live return addresses -/

/-- Each entry below SP is at most 4096, the entries read with `?`. -/
def State.LiveBounded (s : State) : Prop := ∀ k w, k < s.sp.val → s.stack[k]? = some w → w.toNat ≤ 4096

theorem State.runningInv_iff (s : State) :
    s.RunningInv ↔ s.err = .none ∧ s.pc.toNat ≤ 0x10FE ∧ s.LiveBounded := by
  refine and_congr_right' (and_congr_right' ⟨fun h k w hk hw => ?_, fun h k hlt hk => ?_⟩)
  · obtain ⟨hlt, rfl⟩ := Vector.getElem?_eq_some_iff.mp hw
    exact h k hlt hk
  · exact h k _ hk (Vector.getElem?_eq_getElem hlt)

/-- An entry live after an instruction was live before it, or is the one CALL stored. -/
theorem exec_live_before {i : Instr} {s t : State} (h : exec i s = .next t) (he : instrError i s = none) {k : Nat}
    (hk : k < t.sp.val) (hst : ¬ stackEntryStored i s k) : k < s.sp.val := by
  cases i with
  | ret =>
    rw [exec_ret_of_ne (sp_ne_of_noError he)] at h
    cases h
    exact Nat.lt_of_lt_of_le hk (Nat.sub_le _ _)
  | call nnn =>
    rw [exec_call_of_lt (sp_lt_of_noError he)] at h
    cases h
    exact Nat.lt_of_le_of_ne (Nat.le_of_lt_succ hk) hst
  | _ => rwa [(exec_keptBut h he).sp_eq (by simp [partsWritten])] at hk

/-- The entry an instruction stores is the post-fetch PC (41_control_flow.md R102). -/
theorem exec_stored_entry {i : Instr} {s t : State} (h : exec i s = .next t) (he : instrError i s = none) {k : Nat}
    (hst : stackEntryStored i s k) : t.stack[k]? = some s.pc := by
  cases i with
  | call nnn =>
    rw [exec_call_of_lt (sp_lt_of_noError he)] at h
    cases h
    obtain rfl : k = s.sp.val := hst
    exact Vector.getElem?_set_self (sp_lt_of_noError he)
  | _ => exact hst.elim

theorem exec_liveBounded {i : Instr} {s t : State} (hpc : s.pc.toNat ≤ 4096) (hlive : s.LiveBounded)
    (h : exec i s = .next t) (he : instrError i s = none) : t.LiveBounded := by
  intro k w hk hw
  by_cases hst : stackEntryStored i s k
  · rw [exec_stored_entry h he hst] at hw
    cases hw
    exact hpc
  · rw [exec_stack_getElem? h he hst] at hw
    exact hlive k w (exec_live_before h he hk hst) hw

/-! ### The PC -/

/-- By the table of R15 the PC ends at most at 0x10FE: at 4098 after a skip, at a return address, or at a jump's target. -/
theorem pc_le_of_pcAfter {i : Instr} {s t : State} (hpc : s.pc.toNat ≤ 4094) (hlive : s.LiveBounded)
    (he : instrError i s = none) (h : PcAfter i s t) : t.pc.toNat ≤ 0x10FE := by
  cases i with
  | ret =>
    have hsp := sp_ne_of_noError he
    have := hlive _ _ (by omega) h
    omega
  | jp nnn | call nnn =>
    have hn := nnn.isLt
    simp only [PcAfter] at h
    omega
  | jpV0 nnn =>
    have hn := nnn.isLt
    have hb := (s.reg 0).isLt
    simp only [PcAfter] at h
    omega
  | seImm | sneImm | seReg | sneReg | skp | sknp | ldVxK =>
    simp only [PcAfter] at h
    split at h <;> omega
  | _ =>
    simp only [PcAfter] at h
    omega

/-! ### The invariant -/

theorem State.inv_of_halted {s : State} (hm : s.mem.wf) (hs : s.halt = true) : s.Inv :=
  ⟨hm, fun hrun => absurd hs (ne_true_of_eq_false hrun)⟩

/-- The instruction of a STEP, run after the fetch, keeps the invariant. -/
theorem exec_advancePc_inv {i : Instr} {s t : State} (hs : s.halt = false) (hpc : s.pc.toNat ≤ 4094) (hinv : s.Inv)
    (h : exec i (advancePc s) = .next t) : t.Inv := by
  obtain ⟨hm, hrun⟩ := hinv
  obtain ⟨herr, -, hlive⟩ := s.runningInv_iff.mp (hrun hs)
  refine ⟨exec_mem_wf (s := advancePc s) hm h, fun ht => t.runningInv_iff.mpr ?_⟩
  have he := instrError_of_running (s := advancePc s) hs h ht
  refine ⟨?_, pc_le_of_pcAfter hpc hlive he (exec_advancePc_pcAfter hpc h ht), ?_⟩
  · rw [(exec_keptBut h he).err_eq, advancePc_err, herr]
  · have hle : (advancePc s).pc.toNat ≤ 4096 := by rw [advancePc_pc_toNat hpc]; omega
    exact exec_liveBounded hle hlive h he

theorem endStep_inv {t : State} (h : t.Inv) : (endStep t).Inv := by
  unfold endStep
  split
  · exact h
  · exact h

/-- Settles O23: an error keeps memory canonical and halts, and everything else is the instruction's. -/
theorem stepKeepsTheInvariant : Obligations.StepKeepsTheInvariant := by
  intro s t hinv hstep
  rcases step_cases hstep with ⟨-, rfl⟩ | ⟨-, -, rfl⟩ | ⟨op, w, -, -, -, rfl⟩ | ⟨op, i, u, hs, hf, -, hu, rfl⟩
  · exact hinv
  · exact State.inv_of_halted (raiseError_mem_wf _ s) rfl
  · exact State.inv_of_halted (raiseUnknownOpcode_mem_wf w s) rfl
  · obtain ⟨hpc, -⟩ := fetch_some hf
    exact endStep_inv (exec_advancePc_inv hs (by omega) hinv hu)

/-- An empty call stack holds no return address to bound. -/
theorem State.liveBounded_of_empty {s : State} (h : s.sp.val = 0) : s.LiveBounded :=
  fun k _ hk => absurd hk (by omega)

theorem loadProgram_inv (rom : List Byte) (s : State) : (loadProgram rom s).Inv :=
  ⟨Memory.writeList_wf Memory.nil_wf _ rom,
    fun _ => (State.runningInv_iff _).mpr
      ⟨rfl, show (0x0200#16).toNat ≤ 0x10FE by decide, State.liveBounded_of_empty rfl⟩⟩

/-- Settles O22: the reset state is INIT of the empty program. -/
theorem resetMeetsTheInvariant : Obligations.ResetMeetsTheInvariant := loadProgram_inv [] State.reset

theorem init_inv (rom : List Byte) (s : State) : (init rom s).Inv := by
  by_cases h : rom.length ≤ 3584
  · rw [init_of_fits h]
    exact loadProgram_inv rom s
  · rw [init_of_too_long (by omega)]
    exact State.inv_of_halted (raiseError_mem_wf .romTooLarge s) rfl

/-- A STEP with an input byte is a STEP that finds the byte and leaves none. -/
theorem stepWith_next {b : Byte} {s t : State} (h : stepWith b s = .next t) :
    ∃ u, step { s with rndIn := [b] } = .next u ∧ t = { u with rndIn := [] } := by
  obtain ⟨u, hu⟩ := stepIsTotal { s with rndIn := [b] }
  rw [stepWith, hu] at h
  cases h
  exact ⟨u, hu, rfl⟩

/-- Settles O24: the invariant speaks neither of the key latch nor of the input byte. -/
theorem movesKeepTheInvariant : Obligations.MovesKeepTheInvariant := by
  intro m s t hinv hm
  cases m with
  | hostInit rom => cases hm; exact init_inv rom s
  | stepOnce b =>
    obtain ⟨u, hu, rfl⟩ := stepWith_next hm
    exact stepKeepsTheInvariant { s with rndIn := [b] } u hinv hu
  | writeKey k down => cases hm; exact hinv

end Sys2Proof.Machine

/-! SUPPORT. The form of memory, the store and the fetch after it, INIT's reset values, and the timers (20_memory.md,
10_state.md R26, 45_timers_keys.md R167, R168). -/

namespace Sys2Proof.Machine

open Sys2Proof.Claims

/-! ### The canonical form of memory (20_memory.md section 1) -/

theorem Memory.wf_tail {c : Host.Cell} {m : Memory} (h : Memory.wf (c :: m)) : m.wf := by
  obtain ⟨hsort, hcells⟩ := h
  exact ⟨(List.pairwise_cons.mp hsort).2, fun e he => hcells e (List.mem_cons_of_mem _ he)⟩

/-- The first cell of a canonical memory is below the others. -/
theorem Memory.head_lt {c : Host.Cell} {m : Memory} (h : Memory.wf (c :: m)) : ∀ e ∈ m, c.1 < e.1 := by
  obtain ⟨hsort, -⟩ := h
  exact (List.pairwise_cons.mp hsort).1

theorem Memory.head_inside {c : Host.Cell} {m : Memory} (h : Memory.wf (c :: m)) : c.1 < 4096 := by
  obtain ⟨-, hcells⟩ := h
  exact (hcells c List.mem_cons_self).1

/-- A cell of a canonical memory is seen: a memory that reads alike there lists some address not above it. -/
theorem Memory.exists_le_of_read_eq {c : Host.Cell} {m k : Memory} (hm : Memory.wf (c :: m))
    (h : ∀ a, a < 4096 → Memory.read (c :: m) a = k.read a) : ∃ e ∈ k, e.1 ≤ c.1 := by
  have hlt := Memory.head_inside hm
  obtain ⟨-, hcells⟩ := hm
  obtain ⟨-, hne⟩ := hcells c List.mem_cons_self
  refine Classical.byContradiction fun hnone => ?_
  have hall : ∀ e ∈ k, c.1 < e.1 := fun e he => Nat.lt_of_not_le fun hle => hnone ⟨e, he, hle⟩
  have hread := h c.1 hlt
  rw [Memory.read_of_lt hall, Memory.read_cons, if_pos rfl] at hread
  exact hne hread

theorem Memory.head_le_of_read_eq {c d : Host.Cell} {m k : Memory} (hm : Memory.wf (c :: m)) (hk : Memory.wf (d :: k))
    (h : ∀ a, a < 4096 → Memory.read (c :: m) a = Memory.read (d :: k) a) : d.1 ≤ c.1 := by
  obtain ⟨e, he, hle⟩ := Memory.exists_le_of_read_eq hm h
  rcases List.mem_cons.mp he with rfl | he
  · exact hle
  · exact Nat.le_of_lt (Nat.lt_of_lt_of_le (Memory.head_lt hk e he) hle)

/-- Memories with heads at one address that read alike have tails that read alike: both read as reset at that address. -/
theorem Memory.tail_read_eq {a : Nat} {b e : Byte} {m k : Memory} (hm : Memory.wf ((a, b) :: m))
    (hk : Memory.wf ((a, e) :: k)) (h : ∀ x, x < 4096 → Memory.read ((a, b) :: m) x = Memory.read ((a, e) :: k) x) :
    ∀ x, x < 4096 → m.read x = k.read x := by
  intro x hx
  by_cases hax : a = x
  · subst hax
    rw [Memory.read_of_lt (Memory.head_lt hm), Memory.read_of_lt (Memory.head_lt hk)]
  · have hread := h x hx
    rwa [Memory.read_cons, Memory.read_cons, if_neg hax, if_neg hax] at hread

/-- Settles O26, by induction on the cells: the lowest listed addresses agree, with their bytes, and so do the rests. -/
theorem memoryFormIsCanonical : Obligations.MemoryFormIsCanonical := by
  intro m
  induction m with
  | nil =>
    intro k _ hk h
    cases k with
    | nil => rfl
    | cons d k =>
      obtain ⟨e, he, -⟩ := Memory.exists_le_of_read_eq hk fun a ha => (h a ha).symm
      cases he
  | cons c m ih =>
    intro k hm hk h
    cases k with
    | nil =>
      obtain ⟨e, he, -⟩ := Memory.exists_le_of_read_eq hm h
      cases he
    | cons d k =>
      obtain ⟨a, b⟩ := c
      obtain ⟨a', e⟩ := d
      obtain rfl : a = a' :=
        Nat.le_antisymm (Memory.head_le_of_read_eq hk hm fun x hx => (h x hx).symm) (Memory.head_le_of_read_eq hm hk h)
      have ha := Memory.head_inside hm
      obtain rfl : b = e := by
        have hread := h a ha
        rwa [Memory.read_cons, Memory.read_cons, if_pos rfl, if_pos rfl] at hread
      rw [ih k (Memory.wf_tail hm) (Memory.wf_tail hk) (Memory.tail_read_eq hm hk h)]

/-! ### A store and the next fetch (20_memory.md R46, R55) -/

/-- Settles O29: the two bytes fetched at `I` are the first two stored. -/
theorem storesReachTheNextFetch : Obligations.StoresReachTheNextFetch := by
  intro x s hm hx hle
  refine ⟨_, exec_storeRegs_of_inBounds (by omega), ?_⟩
  have hread (r : RegNo) (hr : r.toNat ≤ x.toNat) := read_after_store (r := r) hm (by omega) hr
  have hhi := hread 0x0#4 (Nat.zero_le _)
  have hlo := hread 0x1#4 hx
  rw [fetch_of_le (by show s.index.toNat + 2 ≤ 4096; omega)]
  exact congrArg some ((congrArg (opcodeOfBytes · _) hhi).trans (congrArg (opcodeOfBytes _) hlo))

/-! ### INIT (10_state.md R26) -/

theorem fontTable_length : fontTable.length = 80 := rfl

theorem resetByte_above_font {a : Nat} (h : ¬ a < 80) : resetByte a = 0 := by
  have hnone : fontTable[a]? = none := List.getElem?_eq_none (by rw [fontTable_length]; omega)
  exact congrArg (Option.getD · 0#8) hnone

/-- Memory after INIT: the font, the program, and 0 elsewhere. -/
theorem loadProgram_read {rom : List Byte} (h : rom.length ≤ 3584) (s : State) (a : Nat) :
    (loadProgram rom s).mem.read a =
      if a < 80 then fontTable.getD a 0
      else if 0x200 ≤ a ∧ a < 0x200 + rom.length then rom.getD (a - 0x200) 0 else 0 := by
  rw [loadProgram_mem, Memory.read_writeList Memory.nil_wf _ _ (by simp only [Config.memSize]; omega), Memory.read_nil]
  by_cases hfont : a < 80
  · rw [if_pos hfont, if_neg (by omega)]
    rfl
  · rw [if_neg hfont, resetByte_above_font hfont]

/-- Settles O30: a successful INIT starts from the reset state, and memory is the font under the program. -/
theorem initBuildsTheResetState : Obligations.InitBuildsTheResetState := by
  intro rom s t hrom ht
  rw [init_of_fits hrom] at ht
  subst ht
  exact ⟨State.reset_reg, rfl, rfl, rfl, rfl, rfl, fun k hk => Vector.getElem?_replicate_of_lt hk,
    fun a _ => loadProgram_read hrom s a, Display.pixel_clear, rfl, rfl, rfl⟩

/-! ### The timers (45_timers_keys.md R164, R165, R167, R168) -/

theorem dt_not_written {i : Instr} (h : ∀ x, i ≠ .ldDtVx x) : Part.dt ∉ partsWritten i := by
  cases i with
  | ldDtVx x => exact absurd rfl (h x)
  | _ => simp [partsWritten]

theorem st_not_written {i : Instr} (h : ∀ x, i ≠ .ldStVx x) : Part.st ∉ partsWritten i := by
  cases i with
  | ldStVx x => exact absurd rfl (h x)
  | _ => simp [partsWritten]

/-- Settles O27: the tick takes one from what the instruction left, which is the old timer unless it loads it. -/
theorem timersTickOncePerStep : Obligations.TimersTickOncePerStep := by
  intro s t i hs hpc hd hstep ht
  rw [step_of_decode_opcodeAt hs hpc hd] at hstep
  obtain ⟨u, hu, rfl⟩ := finishStep_next hstep
  rw [endStep_halt] at ht
  have hkept := exec_keptBut hu (instrError_of_running (s := advancePc s) hs hu ht)
  rw [endStep_of_running ht, timerTick_dt, timerTick_st, tickTimer_toNat, tickTimer_toNat]
  refine ⟨fun x hi => ?_, fun hi => ?_, fun x hi => ?_, fun hi => ?_⟩
  · subst hi; cases hu; rfl
  · rw [hkept.dt_eq (dt_not_written hi), advancePc_dt]
  · subst hi; cases hu; rfl
  · rw [hkept.st_eq (st_not_written hi), advancePc_st]

/-- An error-free STEP fetched a word in memory that decodes to an instruction. -/
theorem step_running_decodes {s t : State} (hs : s.halt = false) (hstep : step s = .next t) (ht : t.halt = false) :
    ∃ i, s.pc.toNat ≤ 4094 ∧ fetch s = some (opcodeAt s) ∧ decode (opcodeAt s) = .instr i := by
  rcases step_cases hstep with ⟨hh, -⟩ | ⟨-, -, rfl⟩ | ⟨op, w, -, -, -, rfl⟩ | ⟨op, i, u, -, hf, hd, -, -⟩
  · exact absurd hh (ne_true_of_eq_false hs)
  · cases ht
  · cases ht
  · obtain ⟨hpc, rfl⟩ := fetch_some hf
    exact ⟨i, by omega, hf, hd⟩

/-- A timer that one quiet STEP takes down by one counts down: induction on the number of STEPs. -/
theorem quietSteps_countdown {w : RegNo → Instr} {timer : State → Byte}
    (hone : ∀ (s u : State) (i : Instr), s.halt = false → s.pc.toNat ≤ 4094 → decode (opcodeAt s) = .instr i →
      step s = .next u → u.halt = false → (∀ x, i ≠ w x) → (timer u).toNat = (timer s).toNat - 1) :
    ∀ (k : Nat) (s t : State), QuietSteps w k s t → (timer t).toNat = (timer s).toNat - k := by
  intro k
  induction k with
  | zero => rintro s t rfl; rfl
  | succ k ih =>
    rintro s t ⟨u, hstep, hs, hu, hquiet, hrest⟩
    obtain ⟨i, hpc, hf, hd⟩ := step_running_decodes hs hstep hu
    have hi : ∀ x, i ≠ w x := fun x hx => hquiet _ x hf (by rw [hd, hx])
    rw [ih u t hrest, hone s u i hs hpc hd hstep hu hi]
    omega

/-- Settles O28: by O27 a STEP that does not load the timer takes it down by one. -/
theorem timersCountDown : Obligations.TimersCountDown := by
  refine ⟨quietSteps_countdown fun s u i hs hpc hd hstep hu hi => ?_,
    quietSteps_countdown fun s u i hs hpc hd hstep hu hi => ?_⟩
  · obtain ⟨-, hdt, -⟩ := timersTickOncePerStep s u i hs hpc hd hstep hu
    exact hdt hi
  · obtain ⟨-, -, -, hst⟩ := timersTickOncePerStep s u i hs hpc hd hstep hu
    exact hst hi

end Sys2Proof.Machine

/-! SUPPORT. What cannot influence an instruction or a STEP (40_step_cycle.md R98, 10_state.md R18): two runs whose states agree
once a piece of state is erased end in states that agree once it is erased. -/

namespace Sys2Proof.Machine

open Sys2Proof.Claims

/-- The error the table gives an instruction is what the instruction raises. -/
theorem exec_of_error {i : Instr} {s : State} {e : ErrorKind} (h : instrError i s = some e) :
    exec i s = .next (raiseError e s) := by
  cases i with
  | ret =>
    obtain ⟨hsp, he⟩ := Option.ite_none_right_eq_some.mp h
    cases he
    exact exec_ret_of_empty hsp
  | call nnn =>
    obtain ⟨hsp, he⟩ := Option.ite_none_right_eq_some.mp h
    cases he
    exact exec_call_of_full hsp nnn
  | ldB x =>
    obtain ⟨hi, he⟩ := Option.ite_none_right_eq_some.mp h
    cases he
    exact exec_ldB_of_outside (by omega) x
  | storeRegs x =>
    obtain ⟨hi, he⟩ := Option.ite_none_right_eq_some.mp h
    cases he
    exact exec_storeRegs_of_outside (by omega)
  | loadRegs x =>
    obtain ⟨hi, he⟩ := Option.ite_none_right_eq_some.mp h
    cases he
    exact exec_loadRegs_of_outside (by omega)
  | _ => cases h

/-! ### The key latch, the input byte and the sound timer -/

/-- The pieces of state the rules of noninterference are about, besides the registers. -/
inductive Channel where
  | key | input | sound

/-- The instructions that read a channel. -/
def Channel.ReadBy : Channel → Instr → Prop
  | .key, i => ∃ x, i = .skp x ∨ i = .sknp x ∨ i = .ldVxK x
  | .input, i => ∃ x nn, i = .rnd x nn
  | .sound, _ => False

/-- The state with a channel blanked out: two states agree up to the channel when these are equal. -/
def State.erase : Channel → State → State
  | .key, s => { s with key := 0 }
  | .input, s => { s with rndIn := [] }
  | .sound, s => { s with st := 0 }

@[simp] theorem State.erase_halt (c : Channel) (s : State) : (s.erase c).halt = s.halt := by cases c <;> rfl
@[simp] theorem State.erase_err (c : Channel) (s : State) : (s.erase c).err = s.err := by cases c <;> rfl
@[simp] theorem State.erase_errOpcode (c : Channel) (s : State) : (s.erase c).errOpcode = s.errOpcode := by
  cases c <;> rfl
@[simp] theorem State.erase_pc (c : Channel) (s : State) : (s.erase c).pc = s.pc := by cases c <;> rfl

theorem State.erase_setReg (c : Channel) (s : State) (x : RegNo) (b : Byte) :
    (s.setReg x b).erase c = (s.erase c).setReg x b := by cases c <;> rfl

theorem State.erase_erase (c : Channel) (s : State) : (s.erase c).erase c = s.erase c := by cases c <;> rfl

theorem State.erase_setRegsFrom (c : Channel) (s : State) (k : Nat) (bs : List Byte) :
    (s.setRegsFrom k bs).erase c = (s.erase c).setRegsFrom k bs := by
  induction bs generalizing s k with
  | nil => rfl
  | cons b bs ih => rw [State.setRegsFrom, ih, State.erase_setReg, State.setRegsFrom]

theorem skipIf_erase (c : Channel) (p : Bool) (s : State) : (skipIf p s).erase c = (skipIf p (s.erase c)).erase c := by
  rw [skipIf_eq, skipIf_eq]
  cases c <;> rfl

theorem advancePc_erase (c : Channel) (s : State) : advancePc (s.erase c) = (advancePc s).erase c := by cases c <;> rfl

theorem opcodeAt_erase (c : Channel) (s : State) : opcodeAt (s.erase c) = opcodeAt s := by cases c <;> rfl

theorem instrError_erase (c : Channel) (i : Instr) (s : State) : instrError i (s.erase c) = instrError i s := by
  cases c <;> rfl

/-- An error's outcome reads no channel but for what it keeps of it. -/
theorem raiseError_erase (c : Channel) (e : ErrorKind) (s : State) :
    (raiseError e s).erase c = (raiseError e (s.erase c)).erase c := by cases c <;> rfl

theorem raiseUnknownOpcode_erase (c : Channel) (w : Word) (s : State) :
    (raiseUnknownOpcode w s).erase c = (raiseUnknownOpcode w (s.erase c)).erase c := by cases c <;> rfl

theorem timerTick_erase (c : Channel) (s : State) : (timerTick s).erase c = (timerTick (s.erase c)).erase c := by
  cases c <;> rfl

theorem endStep_erase {c : Channel} {t u : State} (h : t.erase c = u.erase c) :
    (endStep t).erase c = (endStep u).erase c := by
  have hhalt : t.halt = u.halt := by simpa using congrArg State.halt h
  cases hu : u.halt with
  | true => rw [endStep_of_halted hu, endStep_of_halted (hhalt.trans hu), h]
  | false =>
    rw [endStep_of_running hu, endStep_of_running (hhalt.trans hu), timerTick_erase, h, ← timerTick_erase]

/-- Both results are next states, and these agree up to the channel. -/
def AgreeUpTo (c : Channel) (a b : Result) : Prop := ∃ t u, a = .next t ∧ b = .next u ∧ t.erase c = u.erase c

/-- LD Vx,K reads the key latch and no other channel. -/
theorem exec_ldVxK_erase {c : Channel} {x : RegNo} (hc : ¬ c.ReadBy (.ldVxK x)) (s : State) :
    AgreeUpTo c (exec (.ldVxK x) s) (exec (.ldVxK x) (s.erase c)) := by
  cases c with
  | key => exact (hc ⟨x, .inr (.inr rfl)⟩).elim
  | input | sound =>
    by_cases hk : s.key = 0
    · refine ⟨_, _, exec_ldVxK_of_none hk x, exec_ldVxK_of_none ?_ x, rfl⟩
      exact hk
    · refine ⟨_, _, exec_ldVxK_of_some hk x, exec_ldVxK_of_some ?_ x, rfl⟩
      exact hk

/-- An instruction that does not read a channel answers the same with the channel erased, up to that channel. -/
theorem exec_erase {c : Channel} {i : Instr} (hc : ¬ c.ReadBy i) (s : State) :
    AgreeUpTo c (exec i s) (exec i (s.erase c)) := by
  have he' := instrError_erase c i s
  cases he : instrError i s with
  | some e => exact ⟨_, _, exec_of_error he, exec_of_error (he'.trans he), raiseError_erase c e s⟩
  | none =>
    rw [he] at he'
    cases i with
    | ret => exact ⟨_, _, exec_ret_of_ne (sp_ne_of_noError he), exec_ret_of_ne (sp_ne_of_noError he'), by cases c <;> rfl⟩
    | call nnn =>
      exact ⟨_, _, exec_call_of_lt (sp_lt_of_noError he) nnn, exec_call_of_lt (sp_lt_of_noError he') nnn,
        by cases c <;> rfl⟩
    | ldB x =>
      exact ⟨_, _, exec_ldB_of_inBounds (ldB_inBounds_of_noError he) x,
        exec_ldB_of_inBounds (ldB_inBounds_of_noError he') x, by cases c <;> rfl⟩
    | storeRegs x =>
      exact ⟨_, _, exec_storeRegs_of_inBounds (storeRegs_inBounds_of_noError he),
        exec_storeRegs_of_inBounds (storeRegs_inBounds_of_noError he'), by cases c <;> rfl⟩
    | loadRegs x =>
      refine ⟨_, _, exec_loadRegs_of_inBounds (loadRegs_inBounds_of_noError he),
        exec_loadRegs_of_inBounds (loadRegs_inBounds_of_noError he'), ?_⟩
      rw [State.erase_setRegsFrom, State.erase_setRegsFrom, State.erase_erase]
      cases c <;> rfl
    | seImm | sneImm | seReg | sneReg => exact ⟨_, _, rfl, rfl, by cases c <;> exact skipIf_erase _ _ s⟩
    | skp x =>
      cases c with
      | key => exact (hc ⟨x, .inl rfl⟩).elim
      | input | sound => exact ⟨_, _, rfl, rfl, skipIf_erase _ _ s⟩
    | sknp x =>
      cases c with
      | key => exact (hc ⟨x, .inr (.inl rfl)⟩).elim
      | input | sound => exact ⟨_, _, rfl, rfl, skipIf_erase _ _ s⟩
    | ldVxK x => exact exec_ldVxK_erase hc s
    | rnd x nn =>
      cases c with
      | input => exact (hc ⟨x, nn, rfl⟩).elim
      | key | sound => exact ⟨_, _, rfl, rfl, rfl⟩
    | _ => exact ⟨_, _, rfl, rfl, by cases c <;> rfl⟩

/-- The same of a STEP whose opcode is of no instruction that reads the channel. -/
theorem step_erase {c : Channel} {s : State} (hc : ∀ i, decode (opcodeAt s) = .instr i → ¬ c.ReadBy i) :
    AgreeUpTo c (step s) (step (s.erase c)) := by
  have hhalt := State.erase_halt c s
  have hpc := State.erase_pc c s
  have hop := opcodeAt_erase c s
  cases hs : s.halt with
  | true => exact ⟨_, _, step_of_halted hs, step_of_halted (hhalt.trans hs), (State.erase_erase c s).symm⟩
  | false =>
    by_cases hout : s.pc.toNat > 4094
    · exact ⟨_, _, step_of_fetch_none hs (fetch_eq_none hout),
        step_of_fetch_none (hhalt.trans hs) (fetch_eq_none (by rwa [hpc])), raiseError_erase c _ s⟩
    · replace hout : s.pc.toNat ≤ 4094 := by omega
      have hout' : (s.erase c).pc.toNat ≤ 4094 := by rwa [hpc]
      cases hd : decode (opcodeAt s) with
      | unknownOpcode w =>
        exact ⟨_, _, step_of_unknown hs (fetch_eq_opcodeAt hout) hd,
          step_of_unknown (hhalt.trans hs) (fetch_eq_opcodeAt hout') (by rwa [hop]), raiseUnknownOpcode_erase c w s⟩
      | instr i =>
        obtain ⟨t, u, ht, hu, hagree⟩ := exec_erase (hc i hd) (advancePc s)
        refine ⟨endStep t, endStep u, ?_, ?_, endStep_erase hagree⟩
        · rw [step_of_decode_opcodeAt hs hout hd, ht, finishStep]
        · rw [step_of_decode_opcodeAt (hhalt.trans hs) hout' (by rwa [hop]), advancePc_erase, hu, finishStep]

/-- Two states that agree up to a channel step to states that do, where the opcode is of no instruction that reads it. -/
theorem step_agreeUpTo {c : Channel} {s s' : State} (h : s.erase c = s'.erase c)
    (hc : ∀ i, decode (opcodeAt s) = .instr i → ¬ c.ReadBy i) : AgreeUpTo c (step s) (step s') := by
  have hop : opcodeAt s' = opcodeAt s := by rw [← opcodeAt_erase c s', ← h, opcodeAt_erase]
  obtain ⟨t, u, ht, hu, htu⟩ := step_erase hc
  obtain ⟨t', u', ht', hu', htu'⟩ := step_erase (s := s') (by rwa [hop])
  rw [← h, hu] at hu'
  cases hu'
  exact ⟨t, t', ht, ht', htu.trans htu'.symm⟩

theorem sameStatus_of_erase {c : Channel} {t u : State} (h : t.erase c = u.erase c) : SameStatus t u := by
  refine ⟨?_, ?_, fun _ => ?_⟩
  · simpa using (congrArg State.halt h).symm
  · simpa using (congrArg State.err h).symm
  · simpa using (congrArg State.errOpcode h).symm

/-- Settles O19: the next states agree up to the latch, and each keeps its own. -/
theorem keysReachOnlyKeyInstructions : Obligations.KeysReachOnlyKeyInstructions := by
  intro s k hkeys
  have hc : ∀ i, decode (opcodeAt s) = .instr i → ¬ Channel.key.ReadBy i := by
    rintro i hd ⟨x, hi⟩
    obtain ⟨hskp, hsknp, hldVxK⟩ := hkeys x
    rcases hi with rfl | rfl | rfl
    · exact hskp hd
    · exact hsknp hd
    · exact hldVxK hd
  obtain ⟨t, u, ht, hu, hagree⟩ := step_agreeUpTo (s := s) (s' := { s with key := k }) rfl hc
  refine ⟨t, u, ht, hu, sameStatus_of_erase hagree, fun _ => ?_⟩
  calc u = { u.erase .key with key := u.key } := rfl
    _ = { t.erase .key with key := k } := by rw [← hagree, step_key hu]

/-- Settles O20: what is left of the input byte after the STEP is dropped. -/
theorem randomByteReachesOnlyRnd : Obligations.RandomByteReachesOnlyRnd := by
  intro s b c hrnd
  obtain ⟨t, u, ht, hu, hagree⟩ := step_agreeUpTo (s := { s with rndIn := [b] }) (s' := { s with rndIn := [c] })
    (c := .input) rfl (fun i hd ⟨x, nn, hi⟩ => hrnd x nn (hi ▸ hd))
  refine ⟨t.erase .input, u.erase .input, ?_, ?_, ?_, fun _ => hagree.symm⟩
  · rw [stepWith, ht]; rfl
  · rw [stepWith, hu]; rfl
  · rw [hagree]; exact sameStatus_of_erase (c := .input) rfl

/-- Settles O21: no instruction reads the sound timer, so the next states agree up to it. -/
theorem soundTimerIsNeverRead : Obligations.SoundTimerIsNeverRead := by
  intro s b
  obtain ⟨t, u, ht, hu, hagree⟩ := step_agreeUpTo (s := s) (s' := { s with st := b }) (c := .sound) rfl (fun _ _ => id)
  refine ⟨t, u, ht, hu, sameStatus_of_erase hagree, fun _ => ?_⟩
  calc ({ u with st := t.st } : State) = { u.erase .sound with st := t.st } := rfl
    _ = { t.erase .sound with st := t.st } := by rw [hagree]

end Sys2Proof.Machine

/-! SUPPORT. A register an instruction does not read cannot influence it (10_state.md R12): two states that agree off the
register are taken to states that agree off it. -/

namespace Sys2Proof.Machine

open Sys2Proof.Claims

/-! ### Agreement off one register -/

/-- Two states equal once the register is overwritten: they differ at most in it. -/
def AgreeOff (r : RegNo) (s t : State) : Prop := s.setReg r 0 = t.setReg r 0

theorem State.setReg_setReg_self (s : State) (r : RegNo) (b c : Byte) : (s.setReg r b).setReg r c = s.setReg r c := by
  simp [State.setReg]

theorem State.setReg_comm (s : State) {x r : RegNo} (h : x ≠ r) (b c : Byte) :
    (s.setReg x b).setReg r c = (s.setReg r c).setReg x b := by
  simp [State.setReg, Vector.set_comm b c fun hn => h (BitVec.eq_of_toNat_eq hn)]

theorem agreeOff_setReg_self (s : State) (r : RegNo) (b : Byte) : AgreeOff r s (s.setReg r b) :=
  (s.setReg_setReg_self r b 0).symm

/-- An update that commutes with overwriting the register keeps the agreement. -/
theorem AgreeOff.map {r : RegNo} {s t : State} (h : AgreeOff r s t) {f : State → State}
    (hf : ∀ u, (f u).setReg r 0 = f (u.setReg r 0)) : AgreeOff r (f s) (f t) := by
  rw [AgreeOff, hf, hf, h]

/-- So does a write of any register, this one or another. -/
theorem AgreeOff.setReg {r : RegNo} {s t : State} (h : AgreeOff r s t) (x : RegNo) (b : Byte) :
    AgreeOff r (s.setReg x b) (t.setReg x b) := by
  by_cases hx : x = r
  · subst hx
    rw [AgreeOff, State.setReg_setReg_self, State.setReg_setReg_self, h]
  · exact h.map fun u => u.setReg_comm hx b 0

theorem AgreeOff.setWithFlag {r : RegNo} {s t : State} (h : AgreeOff r s t) (x : RegNo) (b f : Byte) :
    AgreeOff r (s.setWithFlag x b f) (t.setWithFlag x b f) :=
  (h.setReg x b).setReg flagReg f

theorem AgreeOff.setRegsFrom {r : RegNo} {s t : State} (h : AgreeOff r s t) (k : Nat) (bs : List Byte) :
    AgreeOff r (s.setRegsFrom k bs) (t.setRegsFrom k bs) := by
  induction bs generalizing s t k with
  | nil => exact h
  | cons b bs ih => exact ih (h.setReg _ b) (k + 1)

theorem AgreeOff.skipIf {r : RegNo} {s t : State} (h : AgreeOff r s t) (c : Bool) :
    AgreeOff r (skipIf c s) (skipIf c t) :=
  h.map fun u => by rw [skipIf_eq, skipIf_eq]; rfl

theorem AgreeOff.reg_eq {r : RegNo} {s t : State} (h : AgreeOff r s t) {q : RegNo} (hq : q ≠ r) :
    t.reg q = s.reg q := by
  have hreg := congrArg (State.reg · q) h
  simpa [hq.symm] using hreg.symm

theorem AgreeOff.rest_eq {r : RegNo} {s t : State} (h : AgreeOff r s t) : { t with v := s.v } = s := by
  calc { t with v := s.v } = { t.setReg r 0 with v := s.v } := rfl
    _ = { s.setReg r 0 with v := s.v } := by rw [h]

theorem AgreeOff.sameStatus {r : RegNo} {s t : State} (h : AgreeOff r s t) : SameStatus s t := by
  rw [← h.rest_eq]
  exact ⟨rfl, rfl, fun _ => rfl⟩

/-! ### Reads of other registers -/

theorem State.reg_setReg_ne (s : State) {r q : RegNo} (h : ¬ r = q) (b : Byte) : (s.setReg r b).reg q = s.reg q := by
  rw [State.reg_setReg, if_neg h]

/-- LD [I],Vx stores none of the registers above `Vx`. -/
theorem State.regsUpTo_setReg_of_gt (s : State) {r x : RegNo} (h : ¬ r.toNat ≤ x.toNat) (b : Byte) :
    (s.setReg r b).regsUpTo x = s.regsUpTo x := by
  refine List.map_congr_left fun k hk => State.reg_setReg_ne s (fun hr => h ?_) b
  have hk := List.mem_range.mp hk
  rw [hr, BitVec.toNat_ofNat]
  exact Nat.le_trans (Nat.mod_le _ _) (Nat.le_of_lt_succ hk)

/-! ### Every instruction -/

/-- Both results are next states, and these agree off the register. -/
def ResultsAgreeOff (r : RegNo) (a b : Result) : Prop := ∃ t u, a = .next t ∧ b = .next u ∧ AgreeOff r t u

theorem exec_ldVxK_agreeOff (x r : RegNo) (b : Byte) (s : State) :
    ResultsAgreeOff r (exec (.ldVxK x) s) (exec (.ldVxK x) (s.setReg r b)) := by
  have h := agreeOff_setReg_self s r b
  by_cases hk : s.key = 0
  · exact ⟨_, _, exec_ldVxK_of_none hk x, exec_ldVxK_of_none (s := s.setReg r b) hk x,
      h.map (f := fun u => { u with pc := s.pc - 2 }) fun _ => rfl⟩
  · exact ⟨_, _, exec_ldVxK_of_some hk x, exec_ldVxK_of_some (s := s.setReg r b) hk x, h.setReg x _⟩

theorem keyDown_setReg_ne (s : State) {r x : RegNo} (h : ¬ r = x) (b : Byte) :
    keyDown x (s.setReg r b) = keyDown x s := by
  rw [keyDown, keyDown, State.reg_setReg_ne s h, State.setReg_key]

theorem offsetTarget_setReg_ne (s : State) {r : RegNo} (h : ¬ r = 0) (b : Byte) (nnn : BitVec 12) :
    offsetTarget nnn (s.setReg r b) = offsetTarget nnn s := by
  rw [offsetTarget, offsetTarget, State.reg_setReg_ne s h]

/-- The operands read are the same, and then both states take the same update. -/
theorem exec_agreeOff_of_noError {i : Instr} {r : RegNo} (hr : ¬ readsReg i r) (b : Byte) {s : State}
    (he : instrError i s = none) : ResultsAgreeOff r (exec i s) (exec i (s.setReg r b)) := by
  have h := agreeOff_setReg_self s r b
  cases i with
  | cls => exact ⟨_, _, rfl, rfl, h.map (f := fun u => { u with disp := _ }) fun _ => rfl⟩
  | jp nnn => exact ⟨_, _, rfl, rfl, h.map (f := fun u => { u with pc := _ }) fun _ => rfl⟩
  | ldI nnn => exact ⟨_, _, rfl, rfl, h.map (f := fun u => { u with index := _ }) fun _ => rfl⟩
  | ldImm | ldVxDt => exact ⟨_, _, rfl, rfl, h.setReg _ _⟩
  | rnd x nn => exact ⟨_, _, rfl, rfl, (h.map (f := State.afterRnd) fun _ => rfl).setReg x _⟩
  | ldVxK x => exact exec_ldVxK_agreeOff x r b s
  | ret =>
    have hsp := sp_ne_of_noError he
    exact ⟨_, _, exec_ret_of_ne hsp, exec_ret_of_ne (s := s.setReg r b) hsp,
      h.map (f := fun u => { u with pc := _, sp := _ }) fun _ => rfl⟩
  | call nnn =>
    have hsp := sp_lt_of_noError he
    exact ⟨_, _, exec_call_of_lt hsp nnn, exec_call_of_lt (s := s.setReg r b) hsp nnn,
      h.map (f := fun u => { u with pc := _, stack := _, sp := _ }) fun _ => rfl⟩
  | loadRegs x =>
    have hle := loadRegs_inBounds_of_noError he
    exact ⟨_, _, exec_loadRegs_of_inBounds hle, exec_loadRegs_of_inBounds (s := s.setReg r b) hle, h.setRegsFrom 0 _⟩
  | storeRegs x =>
    have hle := storeRegs_inBounds_of_noError he
    refine ⟨_, _, exec_storeRegs_of_inBounds hle, exec_storeRegs_of_inBounds (s := s.setReg r b) hle, ?_⟩
    rw [State.regsUpTo_setReg_of_gt s hr]
    exact h.map (f := fun u => { u with mem := _ }) fun _ => rfl
  | ldB x =>
    have hle := ldB_inBounds_of_noError he
    refine ⟨_, _, exec_ldB_of_inBounds hle x, exec_ldB_of_inBounds (s := s.setReg r b) hle x, ?_⟩
    rw [State.reg_setReg_ne s hr]
    exact h.map (f := fun u => { u with mem := _ }) fun _ => rfl
  | jpV0 nnn =>
    refine ⟨_, _, rfl, rfl, ?_⟩
    rw [offsetTarget_setReg_ne s hr]
    exact h.map (f := fun u => { u with pc := offsetTarget nnn s }) fun _ => rfl
  | skp x | sknp x =>
    refine ⟨_, _, rfl, rfl, ?_⟩
    rw [keyDown_setReg_ne s hr]
    exact h.skipIf _
  | seImm x nn | sneImm x nn =>
    refine ⟨_, _, rfl, rfl, ?_⟩
    rw [State.reg_setReg_ne s hr]
    exact h.skipIf _
  | addImm | ldReg =>
    refine ⟨_, _, rfl, rfl, ?_⟩
    rw [State.reg_setReg_ne s hr]
    exact h.setReg _ _
  | shr x y | shl x y =>
    refine ⟨_, _, rfl, rfl, ?_⟩
    rw [State.reg_setReg_ne s hr]
    exact h.setWithFlag x _ _
  | ldDtVx x =>
    refine ⟨_, _, rfl, rfl, ?_⟩
    rw [State.reg_setReg_ne s hr]
    exact h.map (f := fun u => { u with dt := _ }) fun _ => rfl
  | ldStVx x =>
    refine ⟨_, _, rfl, rfl, ?_⟩
    rw [State.reg_setReg_ne s hr]
    exact h.map (f := fun u => { u with st := _ }) fun _ => rfl
  | addI x | ldF x =>
    refine ⟨_, _, rfl, rfl, ?_⟩
    rw [State.reg_setReg_ne s hr]
    exact h.map (f := fun u => { u with index := _ }) fun _ => rfl
  | seReg x y | sneReg x y =>
    obtain ⟨hx, hy⟩ := not_or.mp hr
    refine ⟨_, _, rfl, rfl, ?_⟩
    rw [State.reg_setReg_ne s hx, State.reg_setReg_ne s hy]
    exact h.skipIf _
  | orReg x y | andReg x y | xorReg x y =>
    obtain ⟨hx, hy⟩ := not_or.mp hr
    refine ⟨_, _, rfl, rfl, ?_⟩
    rw [State.reg_setReg_ne s hx, State.reg_setReg_ne s hy]
    exact h.setReg x _
  | addReg x y | sub x y | subn x y =>
    obtain ⟨hx, hy⟩ := not_or.mp hr
    refine ⟨_, _, rfl, rfl, ?_⟩
    rw [State.reg_setReg_ne s hx, State.reg_setReg_ne s hy]
    exact h.setWithFlag x _ _
  | drw x y n =>
    obtain ⟨hx, hy⟩ := not_or.mp hr
    refine ⟨_, _, rfl, rfl, ?_⟩
    rw [State.reg_setReg_ne s hx, State.reg_setReg_ne s hy]
    let drawn := drawSprite s.mem s.index.toNat (s.reg x).toNat (s.reg y).toNat n.toNat s.disp
    exact (h.map (f := fun u => { u with disp := drawn.1 }) fun _ => rfl).setReg flagReg (flagByte drawn.2)

/-- Settles O17: an error's outcome reads no register, and without an error the next states agree off the register. -/
theorem unreadRegistersDoNotMatter : Obligations.UnreadRegistersDoNotMatter := by
  intro i s r b hr
  cases he : instrError i s with
  | some e =>
    refine ⟨_, _, exec_of_error he, exec_of_error (s := s.setReg r b) he, ⟨rfl, rfl, fun _ => rfl⟩, fun h => ?_⟩
    cases h
  | none =>
    obtain ⟨t, u, ht, hu, hagree⟩ := exec_agreeOff_of_noError hr b he
    exact ⟨t, u, ht, hu, hagree.sameStatus, fun _ => ⟨fun q hq => hagree.reg_eq hq, hagree.rest_eq⟩⟩

end Sys2Proof.Machine

/-! SUPPORT. DRW pixel by pixel (44_display.md R151 to R155), and VF after every instruction (10_state.md R27). -/

namespace Sys2Proof.Machine

open Sys2Proof.Claims

/-! ### Drawing a set of pixels, each once -/

/-- `acc` is `d` with exactly the pixels of `P` toggled, and its hit says whether one of them was on. -/
def Drawn (P : Nat → Nat → Prop) (d : Display) (acc : Display × Bool) : Prop :=
  (∀ r c, r < 32 → c < 64 →
    (P r c → acc.1.pixel r c = !d.pixel r c) ∧ (¬ P r c → acc.1.pixel r c = d.pixel r c)) ∧
  (acc.2 = true ↔ ∃ r c, r < 32 ∧ c < 64 ∧ P r c ∧ d.pixel r c = true)

theorem drawn_empty (d : Display) : Drawn (fun _ _ => False) d (d, false) :=
  ⟨fun _ _ _ _ => ⟨False.elim, fun _ => rfl⟩, by simp⟩

theorem Drawn.congr {P Q : Nat → Nat → Prop} {d : Display} {acc : Display × Bool} (h : Drawn P d acc)
    (hpq : ∀ r c, P r c ↔ Q r c) : Drawn Q d acc := by
  have heq : P = Q := funext fun r => funext fun c => propext (hpq r c)
  exact heq ▸ h

/-- A toggle inside the grid flips its own pixel only. -/
theorem Display.pixel_toggle_of_lt (d : Display) (r c : Nat) {r' c' : Nat} (hr : r' < 32) (hc : c' < 64) :
    (d.toggle r c).pixel r' c' = (d.pixel r' c' ^^ decide (r' = r % 32 ∧ c' = c % 64)) := by
  rw [Display.pixel_toggle, Nat.mod_eq_of_lt hr, Nat.mod_eq_of_lt hc, Bool.decide_and]
  simp only [eq_comm (a := r'), eq_comm (a := c')]

/-- One more sprite bit, at a pixel not drawn before. -/
theorem Drawn.bit {P : Nat → Nat → Prop} {d : Display} {acc : Display × Bool} (h : Drawn P d acc) {r c : Nat}
    (hfresh : ¬ P (r % 32) (c % 64)) (bit : Bool) :
    Drawn (fun r' c' => P r' c' ∨ (bit = true ∧ r' = r % 32 ∧ c' = c % 64)) d (drawBit bit r c acc) := by
  cases bit with
  | false => exact h.congr fun r' c' => by simp
  | true =>
    obtain ⟨hpix, hhit⟩ := h
    have hr : r % 32 < 32 := Nat.mod_lt r (by decide)
    have hc : c % 64 < 64 := Nat.mod_lt c (by decide)
    have hkept : acc.1.pixel (r % 32) (c % 64) = d.pixel (r % 32) (c % 64) := (hpix _ _ hr hc).2 hfresh
    have hold : acc.1.pixel r c = d.pixel (r % 32) (c % 64) := by rw [← Display.pixel_mod, hkept]
    refine ⟨fun r' c' hr' hc' => ?_, ?_⟩
    · rw [drawBit_true, Display.pixel_toggle_of_lt _ _ _ hr' hc']
      by_cases hat : r' = r % 32 ∧ c' = c % 64
      · obtain ⟨rfl, rfl⟩ := hat
        simp [hkept]
      · simpa [hat] using hpix r' c' hr' hc'
    · rw [drawBit_true, Bool.or_eq_true, hhit, hold]
      constructor
      · rintro (⟨r', c', hr', hc', hp, hon⟩ | hon)
        · exact ⟨r', c', hr', hc', .inl hp, hon⟩
        · exact ⟨_, _, hr, hc, .inr ⟨rfl, rfl, rfl⟩, hon⟩
      · rintro ⟨r', c', hr', hc', hp | ⟨-, rfl, rfl⟩, hon⟩
        · exact .inl ⟨r', c', hr', hc', hp, hon⟩
        · exact .inr hon

/-- The first `k` columns of a sprite row, in a row where nothing was drawn before: no column meets another. -/
theorem Drawn.columns {P : Nat → Nat → Prop} {d : Display} {acc : Display × Bool} (h : Drawn P d acc) {r : Nat}
    (hfresh : ∀ c, ¬ P (r % 32) c) (b : Byte) (ax : Nat) {k : Nat} (hk : k ≤ 8) :
    Drawn (fun r' c' => P r' c' ∨ (r' = r % 32 ∧ ∃ j, j < k ∧ b.getLsbD (7 - j) = true ∧ c' = (ax + j) % 64)) d
      ((List.range k).foldl (fun a c => drawBit (b.getLsbD (7 - c)) r (ax + c) a) acc) := by
  induction k with
  | zero => exact h.congr fun r' c' => by simp
  | succ k ih =>
    have hnew : ¬ (P (r % 32) ((ax + k) % 64) ∨
        (r % 32 = r % 32 ∧ ∃ j, j < k ∧ b.getLsbD (7 - j) = true ∧ (ax + k) % 64 = (ax + j) % 64)) := by
      rintro (hp | ⟨-, j, hj, -, heq⟩)
      · exact hfresh _ hp
      · omega
    rw [List.range_succ, List.foldl_append]
    refine ((ih (by omega)).bit hnew (b.getLsbD (7 - k))).congr fun r' c' => ?_
    rw [Nat.exists_lt_succ_right, and_or_left, or_assoc, and_left_comm (a := b.getLsbD (7 - k) = true)]

/-- The pixels a sprite is drawn at: row `i` of those in memory, column `j` where its bit is set. -/
def SpriteDraws (m : Memory) (base ax ay n r c : Nat) : Prop :=
  ∃ i, i < n ∧ (base + i + 1 ≤ 4096 ∧ r = (ay + i) % 32 ∧
    ∃ j, j < 8 ∧ (m.read (base + i)).getLsbD (7 - j) = true ∧ c = (ax + j) % 64)

theorem spriteDraws_succ (m : Memory) (base ax ay n r c : Nat) :
    SpriteDraws m base ax ay (n + 1) r c ↔ SpriteDraws m base ax ay n r c ∨
      (base + n + 1 ≤ 4096 ∧ r = (ay + n) % 32 ∧ ∃ j, j < 8 ∧ (m.read (base + n)).getLsbD (7 - j) = true ∧ c = (ax + j) % 64) :=
  Nat.exists_lt_succ_right

/-- A sprite of at most 32 rows draws no pixel twice. -/
theorem drawSprite_drawn (m : Memory) (base ax ay : Nat) (d : Display) {n : Nat} (hn : n ≤ 32) :
    Drawn (SpriteDraws m base ax ay n) d (drawSprite m base ax ay n d) := by
  induction n with
  | zero => exact (drawn_empty d).congr fun r c => by simp [SpriteDraws]
  | succ n ih =>
    have hfresh (c : Nat) : ¬ SpriteDraws m base ax ay n ((ay + n) % 32) c := by
      rintro ⟨i, hi, -, heq, -⟩
      omega
    rw [drawSprite_succ]
    split
    · next hin =>
      refine ((ih (by omega)).columns hfresh _ ax (Nat.le_refl 8)).congr fun r c => ?_
      rw [spriteDraws_succ, and_iff_right hin]
    · next hout =>
      refine (ih (by omega)).congr fun r c => ?_
      rw [spriteDraws_succ, or_iff_left fun ⟨hin, _⟩ => hout hin]

/-- Inside the grid the drawn pixels are the covered ones: row and column offsets are taken back modulo the grid. -/
theorem spriteDraws_iff_covers (m : Memory) (base : Nat) {ax ay n r c : Nat} (hax : ax < 256) (hay : ay < 256)
    (hn : n ≤ 32) (hr : r < 32) (hc : c < 64) :
    SpriteDraws m base ax ay n r c ↔ SpriteCovers m base ax ay n r c := by
  constructor
  · rintro ⟨i, hi, hin, hri, j, hj, hbit, hcj⟩
    have hdr : (r + 256 - ay) % 32 = i := by omega
    have hdc : (c + 256 - ax) % 64 = j := by omega
    rw [SpriteCovers, hdr, hdc]
    exact ⟨hi, by omega, hj, hbit⟩
  · rintro ⟨hi, hin, hj, hbit⟩
    exact ⟨_, hi, by omega, by omega, _, hj, hbit, by omega⟩

/-- Settles O48: the drawn pixels are the covered ones, and the hit, which VF takes, is over the display before. -/
theorem drawTogglesCoveredPixels : Obligations.DrawTogglesCoveredPixels := by
  intro x y n s
  have hn : n.toNat ≤ 32 := by have := n.isLt; omega
  obtain ⟨hpix, hhit⟩ := drawSprite_drawn s.mem s.index.toNat (s.reg x).toNat (s.reg y).toNat s.disp hn
  have hcov {r c : Nat} (hr : r < 32) (hc : c < 64) :=
    spriteDraws_iff_covers s.mem s.index.toNat (s.reg x).isLt (s.reg y).isLt hn hr hc
  refine ⟨_, rfl, fun r c hr hc => ?_, fun ⟨r, c, hr, hc, hcovers, hon⟩ => ?_, fun hoff => ?_, keptBut_draw s _ _⟩
  · rw [← hcov hr hc]
    exact hpix r c hr hc
  · rw [show 0xF#4 = flagReg from rfl, State.reg_setReg_self, hhit.mpr ⟨r, c, hr, hc, (hcov hr hc).mpr hcovers, hon⟩]
    rfl
  · have hnohit : ¬ (drawSprite s.mem s.index.toNat (s.reg x).toNat (s.reg y).toNat n.toNat s.disp).2 = true := by
      rw [hhit]
      rintro ⟨r, c, hr, hc, hdraws, hon⟩
      rw [hoff r c hr hc ((hcov hr hc).mp hdraws)] at hon
      cases hon
    rw [show 0xF#4 = flagReg from rfl, State.reg_setReg_self, Bool.eq_false_iff.mpr hnohit]
    rfl

/-! ### VF after each instruction (R27) -/

/-- VF after DRW: a covered pixel that was on is one that went off. -/
theorem exec_drw_flagAfter {x y : RegNo} {n : BitVec 4} {s t : State} (h : exec (.drw x y n) s = .next t) :
    FlagAfter (.drw x y n) s t := by
  obtain ⟨u, hu, hpix, hhit, hnohit, -⟩ := drawTogglesCoveredPixels x y n s
  rw [h] at hu
  cases hu
  refine ⟨fun ⟨r, c, hon, hoff⟩ => ?_, fun hnone => hnohit fun r c hr hc hcovers => ?_⟩
  · rw [← Display.pixel_mod] at hon hoff
    have hr : r % 32 < 32 := Nat.mod_lt r (by decide)
    have hc : c % 64 < 64 := Nat.mod_lt c (by decide)
    obtain ⟨-, hkept⟩ := hpix _ _ hr hc
    refine hhit ⟨_, _, hr, hc, Classical.byContradiction fun hcovers => ?_, hon⟩
    rw [hkept hcovers, hon] at hoff
    cases hoff
  · obtain ⟨htoggled, -⟩ := hpix r c hr hc
    refine Bool.eq_false_iff.mpr fun hon => hnone ⟨r, c, hon, ?_⟩
    rw [htoggled hcovers, hon]
    rfl

/-- The flag the table gives an instruction, where it raises no error. -/
theorem exec_flagAfter {i : Instr} {s t : State} (h : exec i s = .next t) (he : instrError i s = none) :
    FlagAfter i s t := by
  have hkept := exec_keptBut h he
  cases i with
  | drw x y n => exact exec_drw_flagAfter h
  | addReg x y => cases h; exact (State.setWithFlag_vf s x _ _).trans (carryFlag_eq _ _)
  | sub x y | subn x y => cases h; exact (State.setWithFlag_vf s x _ _).trans (greaterFlag_eq _ _)
  | shr x y => cases h; exact (congrArg BitVec.toNat (State.setWithFlag_vf s x _ _)).trans (lowBitFlag_toNat _)
  | shl x y => cases h; exact (congrArg BitVec.toNat (State.setWithFlag_vf s x _ _)).trans (highBitFlag_toNat _)
  | ldImm x nn | addImm x nn | rnd x nn | ldVxDt x | ldReg x y | orReg x y | andReg x y | xorReg x y =>
    exact fun hx => hkept.reg_eq fun hf => hx hf.symm
  | ldVxK x => exact fun hx => hkept.reg_eq fun ⟨hf, _⟩ => hx hf.symm
  | loadRegs x =>
    refine fun hx => hkept.reg_eq fun hle => hx (BitVec.eq_of_toNat_eq ?_)
    have hlt := x.isLt
    exact Nat.le_antisymm (Nat.le_of_lt_succ hlt) hle
  | _ => exact hkept.reg_eq id

/-- Settles O15: what runs on raised no error, and INIT starts from registers that are 0. -/
theorem flagRegisterAfter : Obligations.FlagRegisterAfter := by
  refine ⟨fun i s t hs h ht => exec_flagAfter h (instrError_of_running hs h ht), fun rom s hrom => ?_⟩
  rw [init_of_fits hrom]
  exact State.reset_reg 0xF#4

end Sys2Proof.Machine
